-- ==== Sys2Proof/Word.lean ====
section
/-! DEFINITION. The bit vectors of the block: bytes, 32-bit words, 256-bit registers, and the adapter's 64-bit gas counts. -/

namespace Sys2Proof

/-- A byte is 8 bits (R50). -/
abbrev Byte := BitVec 8

/-- A 32-bit word: the command word (R88), the STATUS word (R30), a SHA-256 word (R190). -/
abbrev Word32 := BitVec 32

/-- A 256-bit register, 32 bytes (R28, R29). -/
abbrev Reg := BitVec 256

/-- The adapter's `u64` amounts of gas (R240, R241). -/
abbrev Gas := BitVec 64

end Sys2Proof
end

