-- ==== Sys2Proof/Machine/Bytes.lean ====
section
/-! DEFINITION. Byte strings and the numbers they stand for, big-endian (rules R9, R52). -/

namespace Sys2Proof.Machine

/-- `int(B)`: the unsigned big-endian integer of a byte string (R9). -/
def intOfBytes (B : List Byte) : Nat :=
  B.foldl (fun acc b => acc * 256 + b.toNat) 0

/-- The `k` big-endian bytes of `v` (R9: `bytes32`, `bytes4`, `bytes8` are the cases 32, 4, 8). -/
def bytesOfNat : Nat → Nat → List Byte
  | 0, _ => []
  | k + 1, v => BitVec.ofNat 8 (v / 256 ^ k) :: bytesOfNat k v

/-- `bytes32` of a register's content (R9, R52). -/
def bytes32 (r : Reg) : List Byte :=
  bytesOfNat 32 r.toNat

/-- `bytes4` of a 32-bit word (R9, R52). -/
def bytes4 (w : Word32) : List Byte :=
  bytesOfNat 4 w.toNat

/-- The register whose 32 bytes, big-endian, are `B` (R52). -/
def regOfBytes (B : List Byte) : Reg :=
  BitVec.ofNat 256 (intOfBytes B)

/-- The 32-bit word whose 4 bytes, big-endian, are `B` (R52). -/
def word32OfBytes (B : List Byte) : Word32 :=
  BitVec.ofNat 32 (intOfBytes B)

/-- `B[i..j)` (R9). -/
def slice (B : List Byte) (i j : Nat) : List Byte :=
  (B.drop i).take (j - i)

end Sys2Proof.Machine
end

