-- ==== Sys2Proof/Syntax.lean ====
section
/-! DEFINITION. The commands of the block: one constructor per row of the opcode map (rule R90). -/

namespace Sys2Proof

/-- A legal command. `ia` and `ib` are the flag bits IA and IB of rule R88: true says that the first (second)
point operand is the point at infinity. Only the formats P1 and P2 of rule R89 carry them. -/
inductive Instr where
  /-- FADD, R122. -/
  | fadd
  /-- FSUB, R123. -/
  | fsub
  /-- FMUL, R124. -/
  | fmul
  /-- FSQR, R125. -/
  | fsqr
  /-- FNEG, R126. -/
  | fneg
  /-- FINV, R127. -/
  | finv
  /-- FEQ, R128. -/
  | feq
  /-- FPAR, R129. -/
  | fpar
  /-- FDEC, R130. -/
  | fdec
  /-- PADD, R165, format P2. -/
  | padd (ia ib : Bool)
  /-- PDBL, R166, format P1. -/
  | pdbl (ia : Bool)
  /-- PMUL, R167, format P1. -/
  | pmul (ia : Bool)
  /-- PNEG, R168, format P1. -/
  | pneg (ia : Bool)
  /-- PEQ, R169, format P2. -/
  | peq (ia ib : Bool)
  /-- LIFTX, R170. -/
  | liftx
  /-- PCHK, R171, format P1. -/
  | pchk (ia : Bool)
  /-- PGEN, R172. -/
  | pgen
  /-- THASH, R199. -/
  | thash
  /-- CHAL, R200. -/
  | chal
  /-- VERIFY, R224. -/
  | verify
  deriving DecidableEq, Repr

end Sys2Proof
end

