-- ==== Sys2Proof/WellFormed.lean ====
section
/-! DEFINITION. Which command words are well-formed: the fields of rule R88 and the four conditions of rule R91 on them. -/

namespace Sys2Proof

/-- The four fields of a command word (R88). Any values can be written to CMD; `wellFormed` says which are legal. -/
structure CmdFields where
  /-- OPC, bits 7:0. -/
  opc : BitVec 8
  /-- IA, bit 8. -/
  ia : Bool
  /-- IB, bit 9. -/
  ib : Bool
  /-- Bits 31:10, which must be zero. -/
  zero : BitVec 22
  deriving DecidableEq, Repr

/-- The opcodes of format P2, two point operands (R89): PADD, PEQ. -/
def opcodesP2 : List (BitVec 8) := [0x20#8, 0x24#8]

/-- The opcodes of format P1, one point operand (R89): PDBL, PMUL, PNEG, PCHK. -/
def opcodesP1 : List (BitVec 8) := [0x21#8, 0x22#8, 0x23#8, 0x26#8]

/-- The opcodes of format Z, no point operand (R89). -/
def opcodesZ : List (BitVec 8) :=
  [0x10#8, 0x11#8, 0x12#8, 0x13#8, 0x14#8, 0x15#8, 0x16#8, 0x17#8, 0x18#8, 0x25#8, 0x27#8, 0x30#8, 0x31#8, 0x40#8]

/-- OPC is a value of the opcode map (R90). -/
def CmdFields.opcodeOk (f : CmdFields) : Bool :=
  opcodesZ.contains f.opc || opcodesP1.contains f.opc || opcodesP2.contains f.opc

/-- IA is set only where the format has a first point operand (R88, R91). -/
def CmdFields.iaOk (f : CmdFields) : Bool :=
  !f.ia || opcodesP1.contains f.opc || opcodesP2.contains f.opc

/-- IB is set only where the format has a second point operand (R88, R91). -/
def CmdFields.ibOk (f : CmdFields) : Bool :=
  !f.ib || opcodesP2.contains f.opc

/-- Bits 31:10 are zero (R88, R91). -/
def CmdFields.zeroOk (f : CmdFields) : Bool :=
  f.zero == 0#22

/-- The fields of a legal command word: none of the four grounds of rule R91 for IllegalCommand holds. -/
def CmdFields.wellFormed (f : CmdFields) : Bool :=
  f.opcodeOk && f.iaOk && f.ibOk && f.zeroOk

end Sys2Proof
end

