-- ==== Sys2Proof/Decode.lean ====
section
/-! DEFINITION. The opcode map of rule R90, the decoder over it, and the encoder. -/

namespace Sys2Proof

/-- Why bytes are no command. -/
inductive DecodeError where
  /-- The word matches no row of the opcode map (R91). -/
  | illegalCommand
  /-- The bytes are not the four of one command word (R88, R94). -/
  | wrongLength
  deriving DecidableEq, Repr

/-- One row of the opcode map (R90): the word with IA = IB = 0, the mask of the bits that must equal it, and the
command that the row's word stands for when IA and IB are as given. -/
structure OpcodeRow where
  /-- The row's mnemonic. -/
  mnemonic : String
  /-- Column W. -/
  word : Word32
  /-- Column mask. -/
  mask : Word32
  /-- The command, from the bits IA and IB. -/
  instr : Bool → Bool → Instr

/-- The opcode map (R90), row for row. -/
def opcodeMap : List OpcodeRow := [
  ⟨"FADD", 0x00000010#32, 0xFFFFFFFF#32, fun _ _ => .fadd⟩,
  ⟨"FSUB", 0x00000011#32, 0xFFFFFFFF#32, fun _ _ => .fsub⟩,
  ⟨"FMUL", 0x00000012#32, 0xFFFFFFFF#32, fun _ _ => .fmul⟩,
  ⟨"FSQR", 0x00000013#32, 0xFFFFFFFF#32, fun _ _ => .fsqr⟩,
  ⟨"FNEG", 0x00000014#32, 0xFFFFFFFF#32, fun _ _ => .fneg⟩,
  ⟨"FINV", 0x00000015#32, 0xFFFFFFFF#32, fun _ _ => .finv⟩,
  ⟨"FEQ", 0x00000016#32, 0xFFFFFFFF#32, fun _ _ => .feq⟩,
  ⟨"FPAR", 0x00000017#32, 0xFFFFFFFF#32, fun _ _ => .fpar⟩,
  ⟨"FDEC", 0x00000018#32, 0xFFFFFFFF#32, fun _ _ => .fdec⟩,
  ⟨"PADD", 0x00000020#32, 0xFFFFFCFF#32, fun ia ib => .padd ia ib⟩,
  ⟨"PDBL", 0x00000021#32, 0xFFFFFEFF#32, fun ia _ => .pdbl ia⟩,
  ⟨"PMUL", 0x00000022#32, 0xFFFFFEFF#32, fun ia _ => .pmul ia⟩,
  ⟨"PNEG", 0x00000023#32, 0xFFFFFEFF#32, fun ia _ => .pneg ia⟩,
  ⟨"PEQ", 0x00000024#32, 0xFFFFFCFF#32, fun ia ib => .peq ia ib⟩,
  ⟨"LIFTX", 0x00000025#32, 0xFFFFFFFF#32, fun _ _ => .liftx⟩,
  ⟨"PCHK", 0x00000026#32, 0xFFFFFEFF#32, fun ia _ => .pchk ia⟩,
  ⟨"PGEN", 0x00000027#32, 0xFFFFFFFF#32, fun _ _ => .pgen⟩,
  ⟨"THASH", 0x00000030#32, 0xFFFFFFFF#32, fun _ _ => .thash⟩,
  ⟨"CHAL", 0x00000031#32, 0xFFFFFFFF#32, fun _ _ => .chal⟩,
  ⟨"VERIFY", 0x00000040#32, 0xFFFFFFFF#32, fun _ _ => .verify⟩]

/-- R90: a word matches the row whose `(word AND mask) == W`. -/
def OpcodeRow.matchesWord (row : OpcodeRow) (w : Word32) : Bool :=
  w &&& row.mask == row.word

/-- IA, bit 8 of the command word (R88). -/
def flagIA (w : Word32) : Bool := w.getLsbD 8

/-- IB, bit 9 of the command word (R88). -/
def flagIB (w : Word32) : Bool := w.getLsbD 9

/-- The command a word stands for (R90, R92), or IllegalCommand (R91). -/
def decodeWord (w : Word32) : Except DecodeError Instr :=
  match opcodeMap.find? (fun row => row.matchesWord w) with
  | some row => .ok (row.instr (flagIA w) (flagIB w))
  | none => .error .illegalCommand

/-- The decoder on the bytes of a CMD write, big-endian (R52, R92): total on any bytes. -/
def decode (B : List Byte) : Except DecodeError Instr :=
  if B.length = 4 then decodeWord (Machine.word32OfBytes B) else .error .wrongLength

/-- The fields of a command word (R88). -/
def fieldsOfWord (w : Word32) : CmdFields where
  opc := w.extractLsb' 0 8
  ia := flagIA w
  ib := flagIB w
  zero := w.extractLsb' 10 22

/-- The command word with given fields (R88). -/
def CmdFields.word (f : CmdFields) : Word32 :=
  f.zero.setWidth 32 <<< 10 ||| (BitVec.ofBool f.ib).setWidth 32 <<< 9 |||
    (BitVec.ofBool f.ia).setWidth 32 <<< 8 ||| f.opc.setWidth 32

/-- The fields of a command, from the opcode map (R90). -/
def Instr.fields : Instr → CmdFields
  | .fadd => ⟨0x10#8, false, false, 0#22⟩
  | .fsub => ⟨0x11#8, false, false, 0#22⟩
  | .fmul => ⟨0x12#8, false, false, 0#22⟩
  | .fsqr => ⟨0x13#8, false, false, 0#22⟩
  | .fneg => ⟨0x14#8, false, false, 0#22⟩
  | .finv => ⟨0x15#8, false, false, 0#22⟩
  | .feq => ⟨0x16#8, false, false, 0#22⟩
  | .fpar => ⟨0x17#8, false, false, 0#22⟩
  | .fdec => ⟨0x18#8, false, false, 0#22⟩
  | .padd ia ib => ⟨0x20#8, ia, ib, 0#22⟩
  | .pdbl ia => ⟨0x21#8, ia, false, 0#22⟩
  | .pmul ia => ⟨0x22#8, ia, false, 0#22⟩
  | .pneg ia => ⟨0x23#8, ia, false, 0#22⟩
  | .peq ia ib => ⟨0x24#8, ia, ib, 0#22⟩
  | .liftx => ⟨0x25#8, false, false, 0#22⟩
  | .pchk ia => ⟨0x26#8, ia, false, 0#22⟩
  | .pgen => ⟨0x27#8, false, false, 0#22⟩
  | .thash => ⟨0x30#8, false, false, 0#22⟩
  | .chal => ⟨0x31#8, false, false, 0#22⟩
  | .verify => ⟨0x40#8, false, false, 0#22⟩

/-- A command is well-formed when its fields are; with the constructors of `Instr` every one is (R89). -/
def Instr.wellFormed (i : Instr) : Bool :=
  i.fields.wellFormed

/-- The command word of a command (R88, R90). -/
def encode (i : Instr) : Word32 :=
  i.fields.word

/-- The four bytes of a CMD write that issues a command (R52, R95). -/
def encodeBytes (i : Instr) : List Byte :=
  Machine.bytes4 (encode i)

/-- The bytes at offsets 0xC0 to 0xC3 of the command word whose bits are `w`: its low `nbits` bits, every bit above
them zero, big-endian (R52). -/
def tableWordBytes (nbits w : Nat) : List Byte :=
  Machine.bytes4 (BitVec.ofNat 32 (w % 2 ^ nbits))

/-- What the decoder reads from an opcode-table word. -/
def decodeTableWord (nbits w : Nat) : Option Instr :=
  match decode (tableWordBytes nbits w) with
  | .ok i => some i
  | .error _ => none

end Sys2Proof
end

