-- ==== Sys2Proof/Machine/FieldArith.lean ====
section
/-! DEFINITION. Arithmetic in the field of integers modulo p (rules R120, R121, R127, R160). A FieldElement is a Nat below p. -/

namespace Sys2Proof.Machine

/-- The field prime p = 2^256 − 2^32 − 977 (R120), in the hexadecimal form of that rule. -/
def p : Nat := 0xFFFFFFFFFFFFFFFFFFFFFFFFFFFFFFFFFFFFFFFFFFFFFFFFFFFFFFFEFFFFFC2F

/-- `fe_add` (R121). -/
def feAdd (a b : Nat) : Nat := (a + b) % p

/-- `fe_sub` (R121): (a − b) mod p, never negative; b is a FieldElement, so p − b is not truncated. -/
def feSub (a b : Nat) : Nat := (a + (p - b)) % p

/-- `fe_mul` (R121): the full product, then reduced. -/
def feMul (a b : Nat) : Nat := (a * b) % p

/-- `fe_sqr` (R121). -/
def feSqr (a : Nat) : Nat := (a * a) % p

/-- `fe_neg` (R121): 0 for 0. -/
def feNeg (a : Nat) : Nat := (p - a) % p

/-- `fe_eq` (R121). -/
def feEq (a b : Nat) : Bool := decide (a = b)

/-- `fe_par` (R121, R129): 1 for odd. -/
def fePar (a : Nat) : Nat := a % 2

/-- The low `k` base-16 digits of `e`, most significant first, appended to the exponent of `acc` modulo p:
the loop of `fePow`. -/
def fePowDigits (a e : Nat) : Nat → Nat → Nat
  | 0, acc => acc
  | k + 1, acc => fePowDigits a e k (acc ^ 16 * a ^ (e >>> (4 * k) % 16) % p)

/-- a^e mod p for an exponent below 2^256, by 64 base-16 digits (R127, R160: only the value is contractual;
`fePow_eq` in Laws says it is that value; log entry 8). -/
def fePow (a e : Nat) : Nat := fePowDigits a e 64 1

/-- `fe_inv` (R121, R127): a^(p−2) mod p, "via Fermat's little theorem"; 0 for 0. -/
def feInv (a : Nat) : Nat := fePow a (p - 2)

/-- `fe_sqrt` (R160): a square root of c, or none. -/
def feSqrt (c : Nat) : Option Nat :=
  let y := fePow c ((p + 1) / 4)
  if feSqr y = c then some y else none

end Sys2Proof.Machine
end

