-- ==== Sys2Proof/Machine/State.lean ====
section
/-! DEFINITION. The state of one block instance (rule R27) and of its host port, the block's errors, and the reasons a step can stop. -/

namespace Sys2Proof.Machine

/-- One host transaction (R53). `memWrite off bytes` is `MemWrite(off, len(bytes), bytes)`; a write to CMD is the case
`off = 0xC0` with four bytes. Which of them have a meaning is `hostWrite`'s and `hostRead`'s to say. -/
inductive Transaction where
  /-- `MemWrite(off, len(bytes), bytes)`. -/
  | memWrite (off : Nat) (bytes : List Byte)
  /-- `MemRead(off, k)`. -/
  | memRead (off k : Nat)
  /-- `Reset` (R290). -/
  | reset
  deriving DecidableEq, Repr

/-- The fields of the STATUS register (R30). The reserved bits 3 and 31:8 read 0 and are never written, so they hold
nothing and have no field; `Status.word` supplies them (log entry 7). -/
structure Status where
  /-- Bit 0: at least one command has completed since reset. -/
  done : Bool
  /-- Bit 1: the boolean of FEQ, FPAR, PEQ, VERIFY. -/
  t : Bool
  /-- Bit 2: the point result is the point at infinity. -/
  inf : Bool
  /-- Bits 7:4: the error code of the last command. -/
  err : BitVec 4
  deriving DecidableEq, Repr

/-- One block instance (R27: four operand registers, two result registers, STATUS, and nothing else), and the two
fields of the model's own that stand for its host port (log entries 1, 2). -/
structure State where
  /-- opnd[0], offsets 0x00 to 0x1F (R28). -/
  opnd0 : Reg
  /-- opnd[1], offsets 0x20 to 0x3F (R28). -/
  opnd1 : Reg
  /-- opnd[2], offsets 0x40 to 0x5F (R28). -/
  opnd2 : Reg
  /-- opnd[3], offsets 0x60 to 0x7F (R28). -/
  opnd3 : Reg
  /-- res[0], offsets 0x80 to 0x9F (R29). -/
  res0 : Reg
  /-- res[1], offsets 0xA0 to 0xBF (R29). -/
  res1 : Reg
  /-- STATUS, offsets 0xC4 to 0xC7 (R30). -/
  status : Status
  /-- DESIGN CHOICE (log entry 1; safe): the host's transactions that the block has not yet taken, in the host's issue
  order (R56), oldest first. The model's own field. -/
  pending : List Transaction
  /-- DESIGN CHOICE (log entry 2; safe): the bytes the latest transaction returned to the host (R53); none for a write
  or a reset. The model's own field. -/
  answer : List Byte
  deriving DecidableEq, Repr

/-- The machine right after reset: every bit of state zero (R34, R290), no transaction waiting, nothing answered. -/
def State.reset : State where
  opnd0 := 0#256
  opnd1 := 0#256
  opnd2 := 0#256
  opnd3 := 0#256
  res0 := 0#256
  res1 := 0#256
  status := ⟨false, false, false, 0#4⟩
  pending := []
  answer := []

/-- The errors of a command (R261). They are outcomes of a command, not stops of the machine: `raiseError` takes them. -/
inductive CmdError where
  /-- The command word matches no row of the opcode map (R91, R274). -/
  | illegalCommand
  /-- An operand read as a FieldElement is p or more (R80). -/
  | outOfRangeError
  /-- x³ + 7 has no square root modulo p (R159). -/
  | invalidXCoordinateError
  /-- A point operand is not on the curve (R82). -/
  | notOnCurveError
  deriving DecidableEq, Repr

/-- What a command that succeeds returns: `return (r0, r1, t, inf)` of rule R11, where a component left out is 0. -/
structure CmdResult where
  /-- The number for res[0]. -/
  r0 : Nat := 0
  /-- The number for res[1]. -/
  r1 : Nat := 0
  /-- The truth result. -/
  t : Bool := false
  /-- The point result is the point at infinity. -/
  inf : Bool := false
  deriving DecidableEq, Repr

/-- Why the machine stops with a fault. The block itself never does (R262, R264). -/
inductive Fault where
  /-- Raised by the adapter alone, before it touches the block, when `gasAvailable < GAS_COST` (R242, R260). It is
  the spec's own fatal failure: safe. -/
  | outOfGas
  deriving DecidableEq, Repr

/-- Why the model gives no meaning. No arm of `exec` and no command raises one; the host port raises the first five
after `notModelled` for accesses outside rule R53's table. -/
inductive Refusal where
  /-- An instruction whose meaning is not written. Raised by no arm: every command has its meaning. Safe. -/
  | notModelled (mnemonic : String)
  /-- A transaction of no bytes: R53 asks for k ≥ 1. Raised by the host port. Safe (log entry 6). -/
  | emptyAccess
  /-- A write of only a part of CMD (R54). Raised by the host port. Safe (log entry 5). -/
  | partialCommandWrite
  /-- One transaction over bytes of two rows of R53's table (R54). Raised by the host port. Safe (log entry 5). -/
  | straddlesRegisters
  /-- An access with a byte at offset 0xC8 or above, or below the window (R50, R54). Raised by the host port and by
  the platform's address map. Safe (log entries 5, 10). -/
  | outsideWindow
  /-- A STATUS read that is neither the whole word nor 1 or 2 aligned bytes (R53). Raised by the host port. Safe
  (log entry 6). -/
  | statusReadShape
  /-- A transaction to an instance the system does not have (R270). Raised by `System.transactAt`. Safe (log entry 12). -/
  | noSuchInstance
  deriving DecidableEq, Repr

end Sys2Proof.Machine
end

