-- ==== Sys2Proof/Machine/Curve.lean ====
section
/-! DEFINITION. The curve y² = x³ + 7 over the field, its constants and its group law (rules R150 to R160). -/

namespace Sys2Proof.Machine

/-- A CurvePoint (R12, R21): the point at infinity O, or an affine pair of FieldElements. `Point.valid` is its
invariant. -/
inductive Point where
  /-- O, the point at infinity. -/
  | infinity
  /-- The pair (x, y). -/
  | affine (x y : Nat)
  deriving DecidableEq, Repr

/-- The group order n (R151). -/
def n : Nat := 0xFFFFFFFFFFFFFFFFFFFFFFFFFFFFFFFEBAAEDCE6AF48A03BBFD25E8CD0364141

/-- The x-coordinate of the generator (R152). -/
def Gx : Nat := 0x79BE667EF9DCBBAC55A06295CE870B07029BFCDB2DCE28D959F2815B16F81798

/-- The y-coordinate of the generator (R152). -/
def Gy : Nat := 0x483ADA7726A3C4655DA4FBFC0E1108A8FD17B448A68554199C47D08FFB10D4B8

/-- The generator G (R152). -/
def G : Point := .affine Gx Gy

/-- `on_curve(x, y)` (R150, R153): y² = x³ + 7 modulo p. -/
def onCurve (x y : Nat) : Bool :=
  decide ((y * y) % p = (x * x * x + 7) % p)

/-- The invariant of a CurvePoint (R21): O, or both coordinates in range and on the curve. -/
def Point.valid : Point → Bool
  | .infinity => true
  | .affine x y => decide (x < p) && decide (y < p) && onCurve x y

/-- `pt_neg` (R154). -/
def ptNeg : Point → Point
  | .infinity => .infinity
  | .affine x y => .affine x (feNeg y)

/-- `pt_dbl` (R155): the tangent rule. -/
def ptDbl : Point → Point
  | .infinity => .infinity
  | .affine x y =>
    if y = 0 then .infinity
    else
      let lam := feMul (feMul 3 (feSqr x)) (feInv (feMul 2 y))
      let x3 := feSub (feSub (feSqr lam) x) x
      let y3 := feSub (feMul lam (feSub x x3)) y
      .affine x3 y3

/-- `pt_add` (R156): the chord rule, its identity cases, doubling for equal points, O for opposite ones. -/
def ptAdd : Point → Point → Point
  | .infinity, Q => Q
  | .affine x1 y1, .infinity => .affine x1 y1
  | .affine x1 y1, .affine x2 y2 =>
    if x1 = x2 ∧ y1 = y2 then ptDbl (.affine x1 y1)
    else if x1 = x2 then .infinity
    else
      let lam := feMul (feSub y2 y1) (feInv (feSub x2 x1))
      let x3 := feSub (feSub (feSqr lam) x1) x2
      let y3 := feSub (feMul lam (feSub x1 x3)) y1
      .affine x3 y3

/-- The loop of rule R157: bits i − 1 down to 0 of k, R the running point. -/
def ptMulBits (k : Nat) (P : Point) : Nat → Point → Point
  | 0, R => R
  | i + 1, R =>
    let R2 := ptDbl R
    ptMulBits k P i (if k.testBit i then ptAdd R2 P else R2)

/-- `pt_mul(k, P)` for k < 2^256, by the double-and-add loop of rule R157. Only the value is contractual: k times P
(log entry 8). -/
def ptMul (k : Nat) (P : Point) : Point :=
  ptMulBits k P 256 .infinity

/-- `pt_mul` as rule R157 defines it: P added to itself k times. Not used to run a command; the statements compare
`ptMul` with it. -/
def ptMulIter : Nat → Point → Point
  | 0, _ => .infinity
  | k + 1, P => ptAdd (ptMulIter k P) P

/-- `pt_eq` (R158). -/
def ptEq : Point → Point → Bool
  | .infinity, .infinity => true
  | .infinity, .affine _ _ => false
  | .affine _ _, .infinity => false
  | .affine x1 y1, .affine x2 y2 => decide (x1 = x2 ∧ y1 = y2)

/-- `lift_x` (R159): the point above x with even y, or InvalidXCoordinateError. -/
def liftX (x : Nat) : Except CmdError Point :=
  let c := feAdd (feMul (feSqr x) x) 7
  match feSqrt c with
  | none => .error .invalidXCoordinateError
  | some y => .ok (.affine x (if y % 2 = 1 then p - y else y))

end Sys2Proof.Machine
end

