-- ==== Sys2Proof/Machine/Flags.lean ====
section
/-! DEFINITION. The STATUS register: its 32-bit word, the error codes, and the two values a command gives it (rules R30, R92, R261). -/

namespace Sys2Proof.Machine

/-- The 32-bit word of STATUS (R30): ERR in bits 7:4, INF bit 2, T bit 1, DONE bit 0, the reserved bits 0. -/
def Status.word (st : Status) : Word32 :=
  0#24 ++ st.err ++ 0#1 ++ BitVec.ofBool st.inf ++ BitVec.ofBool st.t ++ BitVec.ofBool st.done

/-- The code of an error, the value of STATUS.ERR (R261). -/
def CmdError.code : CmdError → BitVec 4
  | .illegalCommand => 1#4
  | .outOfRangeError => 2#4
  | .invalidXCoordinateError => 3#4
  | .notOnCurveError => 4#4

/-- STATUS after a command that returned (R92): DONE = 1, ERR = 0. -/
def statusOk (t inf : Bool) : Status :=
  ⟨true, t, inf, 0#4⟩

/-- STATUS after a command that raised an error (R92, R262): DONE = 1, T = INF = 0, ERR = its code. -/
def statusError (e : CmdError) : Status :=
  ⟨true, false, false, e.code⟩

end Sys2Proof.Machine
end

