-- ==== Sys2Proof/Machine/Ops.lean ====
section
/-! DEFINITION. The named operations over the registers: the operand registers by number, the register space as bytes, completing a command, and taking an error. -/

namespace Sys2Proof.Machine

/-- `opnd[i]` (R10, R28). -/
def State.opnd (s : State) (i : Fin 4) : Reg :=
  match i with
  | 0 => s.opnd0
  | 1 => s.opnd1
  | 2 => s.opnd2
  | 3 => s.opnd3

/-- The 128 bytes of the operand buffer, offsets 0x00 to 0x7F (R28, R51, R52). -/
def State.operandBytes (s : State) : List Byte :=
  bytes32 s.opnd0 ++ bytes32 s.opnd1 ++ bytes32 s.opnd2 ++ bytes32 s.opnd3

/-- The 64 bytes of the result buffer, offsets 0x80 to 0xBF (R29, R51, R52). -/
def State.resultBytes (s : State) : List Byte :=
  bytes32 s.res0 ++ bytes32 s.res1

/-- The 200 bytes of the register space as the host reads them (R50, R51): the operand buffer, the result buffer, CMD,
which reads zero, and STATUS. -/
def State.spaceBytes (s : State) : List Byte :=
  s.operandBytes ++ s.resultBytes ++ bytes4 0#32 ++ bytes4 s.status.word

/-- The byte the host reads at an offset of the register space; none outside the window (R51). -/
def State.readByte (s : State) (off : Nat) : Option Byte :=
  s.spaceBytes[off]?

/-- The `k` bytes from offset `off` on, as the host reads them (R51, R52). -/
def State.readBytes (s : State) (off k : Nat) : List Byte :=
  slice s.spaceBytes off (off + k)

/-- The operand registers become those 128 bytes (R51, R52). -/
def State.setOperandBytes (s : State) (B : List Byte) : State :=
  { s with
    opnd0 := regOfBytes (slice B 0x00 0x20)
    opnd1 := regOfBytes (slice B 0x20 0x40)
    opnd2 := regOfBytes (slice B 0x40 0x60)
    opnd3 := regOfBytes (slice B 0x60 0x80) }

/-- Bytes `off` to `off + len(B) − 1` of the operand buffer become `B`; nothing else changes (R53). -/
def State.writeOperandBytes (s : State) (off : Nat) (B : List Byte) : State :=
  s.setOperandBytes (s.operandBytes.take off ++ B ++ s.operandBytes.drop (off + B.length))

/-- The success outcome of a command (R92): both result registers and all of STATUS are written, nothing else. -/
def complete (r : CmdResult) (s : State) : State :=
  { s with
    res0 := BitVec.ofNat 256 r.r0
    res1 := BitVec.ofNat 256 r.r1
    status := statusOk r.t r.inf }

/-- Taking an error, the ONE operation for every error of every command (R92, R262, R274): res[0], res[1], T and INF
become 0, ERR the code, DONE 1. Nothing is saved and control goes nowhere. There is no return from an error (R264). -/
def raiseError (e : CmdError) (s : State) : State :=
  { s with
    res0 := 0#256
    res1 := 0#256
    status := statusError e }

/-- The outcome of a command, from its pseudocode's `return` or `raise` (R11, R92). -/
def settle (o : Except CmdError CmdResult) (s : State) : State :=
  match o with
  | .ok r => complete r s
  | .error e => raiseError e s

/-- The reset event on the block (R290): every bit of state to its value of rule R34. The host's transactions still to
come are the host's, and stay (log entry 1). -/
def applyReset (s : State) : State :=
  { State.reset with pending := s.pending }

end Sys2Proof.Machine
end

