-- ==== Sys2Proof/Machine/Operands.lean ====
section
/-! DEFINITION. The operand forms: decoding field elements, scalars and points from operand registers, encoding point and boolean results (rules R80 to R83, R87), and which registers a command reads (R90). -/

namespace Sys2Proof.Machine

/-- `DecFE(i)` on the register's content (R80). -/
def decFE (v : Reg) : Except CmdError Nat :=
  if p ≤ v.toNat then .error .outOfRangeError else .ok v.toNat

/-- `DecScalar(i)` on the register's content (R81): any value, reduced modulo n. -/
def decScalar (v : Reg) : Nat :=
  v.toNat % n

/-- `DecPt(i, j, inf)` on the two registers' contents (R82, check order R93): with the flag set nothing is read. -/
def decPt (inf : Bool) (vx vy : Reg) : Except CmdError Point :=
  match inf with
  | true => .ok .infinity
  | false => do
    let x ← decFE vx
    let y ← decFE vy
    if onCurve x y then .ok (.affine x y) else .error .notOnCurveError

/-- The first point operand: opnd[0], opnd[1] and the flag IA (R82). -/
def decPtA (ia : Bool) (s : State) : Except CmdError Point :=
  decPt ia s.opnd0 s.opnd1

/-- The second point operand: opnd[2], opnd[3] and the flag IB (R82). -/
def decPtB (ib : Bool) (s : State) : Except CmdError Point :=
  decPt ib s.opnd2 s.opnd3

/-- `EncPt(Q)` (R83). -/
def encPt : Point → CmdResult
  | .infinity => { inf := true }
  | .affine x y => { r0 := x, r1 := y }

/-- A boolean result, in T and as the number in res[0] (R87). -/
def encBool (b : Bool) : CmdResult :=
  { r0 := b.toNat, t := b }

/-- The operand registers of a point operand that are read: none when its flag is set (R82). -/
def pointReads (inf : Bool) (i j : Fin 4) : List (Fin 4) :=
  if inf then [] else [i, j]

/-- The operand registers a command reads (R90, column "reads"; R82 for the flags). -/
def readsOf : Instr → List (Fin 4)
  | .fadd => [0, 1]
  | .fsub => [0, 1]
  | .fmul => [0, 1]
  | .fsqr => [0]
  | .fneg => [0]
  | .finv => [0]
  | .feq => [0, 1]
  | .fpar => [0]
  | .fdec => [0]
  | .padd ia ib => pointReads ia 0 1 ++ pointReads ib 2 3
  | .pdbl ia => pointReads ia 0 1
  | .pmul ia => pointReads ia 0 1 ++ [2]
  | .pneg ia => pointReads ia 0 1
  | .peq ia ib => pointReads ia 0 1 ++ pointReads ib 2 3
  | .liftx => [0]
  | .pchk ia => pointReads ia 0 1
  | .pgen => []
  | .thash => [0, 1, 2]
  | .chal => [0, 1, 2]
  | .verify => [0, 1, 2, 3]

end Sys2Proof.Machine
end

