-- ==== Sys2Proof/Machine/FieldCommands.lean ====
section
/-! DEFINITION. The FieldElement commands (rules R122 to R130). -/

namespace Sys2Proof.Machine

/-- FADD (R122): res[0] = (a + b) mod p. -/
def execFadd (s : State) : Host.Outcome State Fault Refusal :=
  .next (settle (do
    let a ← decFE s.opnd0
    let b ← decFE s.opnd1
    .ok { r0 := feAdd a b }) s)

/-- FSUB (R123): res[0] = (a − b) mod p. -/
def execFsub (s : State) : Host.Outcome State Fault Refusal :=
  .next (settle (do
    let a ← decFE s.opnd0
    let b ← decFE s.opnd1
    .ok { r0 := feSub a b }) s)

/-- FMUL (R124): res[0] = (a · b) mod p. -/
def execFmul (s : State) : Host.Outcome State Fault Refusal :=
  .next (settle (do
    let a ← decFE s.opnd0
    let b ← decFE s.opnd1
    .ok { r0 := feMul a b }) s)

/-- FSQR (R125): res[0] = (a · a) mod p. -/
def execFsqr (s : State) : Host.Outcome State Fault Refusal :=
  .next (settle (do
    let a ← decFE s.opnd0
    .ok { r0 := feSqr a }) s)

/-- FNEG (R126): res[0] = (p − a) mod p. -/
def execFneg (s : State) : Host.Outcome State Fault Refusal :=
  .next (settle (do
    let a ← decFE s.opnd0
    .ok { r0 := feNeg a }) s)

/-- FINV (R127): res[0] = a^(p−2) mod p; zero for zero, with no error. -/
def execFinv (s : State) : Host.Outcome State Fault Refusal :=
  .next (settle (do
    let a ← decFE s.opnd0
    .ok { r0 := feInv a }) s)

/-- FEQ (R128): T and res[0] say whether a = b. -/
def execFeq (s : State) : Host.Outcome State Fault Refusal :=
  .next (settle (do
    let a ← decFE s.opnd0
    let b ← decFE s.opnd1
    .ok (encBool (feEq a b))) s)

/-- FPAR (R129): T and res[0] are the parity of a, 1 for odd. -/
def execFpar (s : State) : Host.Outcome State Fault Refusal :=
  .next (settle (do
    let a ← decFE s.opnd0
    .ok (encBool (decide (fePar a = 1)))) s)

/-- FDEC (R130, R131): res[0] = a, the conversion from and back to the 32 bytes. -/
def execFdec (s : State) : Host.Outcome State Fault Refusal :=
  .next (settle (do
    let a ← decFE s.opnd0
    .ok { r0 := a }) s)

end Sys2Proof.Machine
end

