-- ==== Sys2Proof/Machine/Sha256.lean ====
section
/-! DEFINITION. SHA-256 (rules R190 to R195). -/

namespace Sys2Proof.Machine

/-- `ROTR(x, k)` (R190). -/
def rotr (x : Word32) (k : Nat) : Word32 :=
  x >>> k ||| x <<< (32 - k)

/-- Eight words: the hash value H[0..7], or the working variables a to h (R192, R194). -/
structure ShaWords where
  /-- a, H[0] -/
  a : Word32
  /-- b, H[1] -/
  b : Word32
  /-- c, H[2] -/
  c : Word32
  /-- d, H[3] -/
  d : Word32
  /-- e, H[4] -/
  e : Word32
  /-- f, H[5] -/
  f : Word32
  /-- g, H[6] -/
  g : Word32
  /-- h, H[7] -/
  h : Word32
  deriving DecidableEq, Repr

/-- The initial hash value H0[0..7] (R192). -/
def shaInit : ShaWords :=
  ⟨0x6A09E667#32, 0xBB67AE85#32, 0x3C6EF372#32, 0xA54FF53A#32, 0x510E527F#32, 0x9B05688C#32, 0x1F83D9AB#32, 0x5BE0CD19#32⟩

/-- The round constants K[0..31] (R192). -/
def shaKLow : List Word32 := [
  0x428A2F98#32, 0x71374491#32, 0xB5C0FBCF#32, 0xE9B5DBA5#32, 0x3956C25B#32, 0x59F111F1#32, 0x923F82A4#32, 0xAB1C5ED5#32,
  0xD807AA98#32, 0x12835B01#32, 0x243185BE#32, 0x550C7DC3#32, 0x72BE5D74#32, 0x80DEB1FE#32, 0x9BDC06A7#32, 0xC19BF174#32,
  0xE49B69C1#32, 0xEFBE4786#32, 0x0FC19DC6#32, 0x240CA1CC#32, 0x2DE92C6F#32, 0x4A7484AA#32, 0x5CB0A9DC#32, 0x76F988DA#32,
  0x983E5152#32, 0xA831C66D#32, 0xB00327C8#32, 0xBF597FC7#32, 0xC6E00BF3#32, 0xD5A79147#32, 0x06CA6351#32, 0x14292967#32]

/-- The round constants K[32..63] (R192). -/
def shaKHigh : List Word32 := [
  0x27B70A85#32, 0x2E1B2138#32, 0x4D2C6DFC#32, 0x53380D13#32, 0x650A7354#32, 0x766A0ABB#32, 0x81C2C92E#32, 0x92722C85#32,
  0xA2BFE8A1#32, 0xA81A664B#32, 0xC24B8B70#32, 0xC76C51A3#32, 0xD192E819#32, 0xD6990624#32, 0xF40E3585#32, 0x106AA070#32,
  0x19A4C116#32, 0x1E376C08#32, 0x2748774C#32, 0x34B0BCB5#32, 0x391C0CB3#32, 0x4ED8AA4A#32, 0x5B9CCA4F#32, 0x682E6FF3#32,
  0x748F82EE#32, 0x78A5636F#32, 0x84C87814#32, 0x8CC70208#32, 0x90BEFFFA#32, 0xA4506CEB#32, 0xBEF9A3F7#32, 0xC67178F2#32]

/-- The round constants K[0..63] (R192). -/
def shaK : List Word32 := shaKLow ++ shaKHigh

/-- The padding after a message of `len` bytes (R191): 0x80, the fewest zero bytes that make a multiple of 64, and the
length in bits as 8 bytes. -/
def shaPadding (len : Nat) : List Byte :=
  0x80#8 :: (List.replicate ((64 - (len + 9) % 64) % 64) 0#8 ++ bytesOfNat 8 (8 * len))

/-- The padded message (R191). -/
def shaPad (M : List Byte) : List Byte :=
  M ++ shaPadding M.length

/-- The first `count` pieces of `size` elements of a list. -/
def pieces {α : Type} (size : Nat) : Nat → List α → List (List α)
  | 0, _ => []
  | count + 1, l => l.take size :: pieces size count (l.drop size)

/-- The 16 words W[0..15] of a block of 64 bytes (R191). -/
def blockWords (block : List Byte) : List Word32 :=
  (pieces 4 16 block).map word32OfBytes

/-- The next word of the message schedule, from the words so far, the latest first (R193): W[t−2], W[t−7], W[t−15] and
W[t−16] stand at the places 1, 6, 14 and 15. -/
def scheduleNext (rev : List Word32) : Word32 :=
  let w15 := rev.getD 14 0#32
  let w2 := rev.getD 1 0#32
  let s0 := rotr w15 7 ^^^ rotr w15 18 ^^^ w15 >>> 3
  let s1 := rotr w2 17 ^^^ rotr w2 19 ^^^ w2 >>> 10
  rev.getD 15 0#32 + s0 + rev.getD 6 0#32 + s1

/-- `count` further words of the schedule, the latest first (R193). -/
def scheduleExtend : Nat → List Word32 → List Word32
  | 0, rev => rev
  | count + 1, rev => scheduleExtend count (scheduleNext rev :: rev)

/-- The message schedule W[0..63] of a block (R193). -/
def schedule (block : List Byte) : List Word32 :=
  (scheduleExtend 48 (blockWords block).reverse).reverse

/-- One round (R194), with its constant K[t] and its word W[t]. -/
def shaRound (v : ShaWords) (kt wt : Word32) : ShaWords :=
  let S1 := rotr v.e 6 ^^^ rotr v.e 11 ^^^ rotr v.e 25
  let ch := (v.e &&& v.f) ^^^ (~~~v.e &&& v.g)
  let T1 := v.h + S1 + ch + kt + wt
  let S0 := rotr v.a 2 ^^^ rotr v.a 13 ^^^ rotr v.a 22
  let maj := (v.a &&& v.b) ^^^ (v.a &&& v.c) ^^^ (v.b &&& v.c)
  let T2 := S0 + maj
  ⟨T1 + T2, v.a, v.b, v.c, v.d + T1, v.e, v.f, v.g⟩

/-- The 64 rounds on the working variables (R194). -/
def shaRounds (v : ShaWords) (block : List Byte) : ShaWords :=
  (shaK.zip (schedule block)).foldl (fun v kw => shaRound v kw.1 kw.2) v

/-- The compression of one block into the hash value (R194). -/
def shaCompress (H : ShaWords) (block : List Byte) : ShaWords :=
  let v := shaRounds H block
  ⟨H.a + v.a, H.b + v.b, H.c + v.c, H.d + v.d, H.e + v.e, H.f + v.f, H.g + v.g, H.h + v.h⟩

/-- The 32 bytes of a hash value (R195). -/
def ShaWords.bytes (H : ShaWords) : List Byte :=
  bytes4 H.a ++ bytes4 H.b ++ bytes4 H.c ++ bytes4 H.d ++ bytes4 H.e ++ bytes4 H.f ++ bytes4 H.g ++ bytes4 H.h

/-- `SHA256(M)` (R190 to R195). The spec gives it for messages below 2^61 bytes; no command hashes a longer one (log
entry 9). -/
def sha256 (M : List Byte) : List Byte :=
  let padded := shaPad M
  ((pieces 64 (padded.length / 64) padded).foldl shaCompress shaInit).bytes

end Sys2Proof.Machine
end

