-- ==== Sys2Proof/Machine/TaggedHash.lean ====
section
/-! DEFINITION. The tagged hash and the challenge (rules R196 to R198, R201). -/

namespace Sys2Proof.Machine

/-- `TaggedHash(tag, data)` for any tag and data (R196, R201). -/
def taggedHash (tag data : List Byte) : List Byte :=
  let th := sha256 tag
  sha256 (th ++ th ++ data)

/-- The 17 ASCII bytes of "BIP0340/challenge" (R197). -/
def challengeTag : List Byte := [
  0x42#8, 0x49#8, 0x50#8, 0x30#8, 0x33#8, 0x34#8, 0x30#8, 0x2F#8, 0x63#8, 0x68#8, 0x61#8, 0x6C#8, 0x6C#8, 0x65#8,
  0x6E#8, 0x67#8, 0x65#8]

/-- `chal_hash(rb, pkb, mb)` (R198): the 32 bytes of the challenge hash. -/
def chalHash (rb pkb mb : List Byte) : List Byte :=
  taggedHash challengeTag (rb ++ pkb ++ mb)

/-- `chal(rb, pkb, mb)` (R198): the challenge scalar, the hash as a big-endian integer modulo n. -/
def chal (rb pkb mb : List Byte) : Nat :=
  intOfBytes (chalHash rb pkb mb) % n

end Sys2Proof.Machine
end

