-- ==== Sys2Proof/Machine/HashCommands.lean ====
section
/-! DEFINITION. The TaggedHash commands (rules R199, R200). -/

namespace Sys2Proof.Machine

/-- THASH (R199): the challenge hash of opnd[0] ‖ opnd[1] ‖ opnd[2] as bytes, in hash order in res[0]. -/
def execThash (s : State) : Host.Outcome State Fault Refusal :=
  .next (settle (.ok { r0 := intOfBytes (chalHash (bytes32 s.opnd0) (bytes32 s.opnd1) (bytes32 s.opnd2)) }) s)

/-- CHAL (R200): the challenge scalar of the same bytes. -/
def execChal (s : State) : Host.Outcome State Fault Refusal :=
  .next (settle (.ok { r0 := chal (bytes32 s.opnd0) (bytes32 s.opnd1) (bytes32 s.opnd2) }) s)

end Sys2Proof.Machine
end

