-- ==== Sys2Proof/Machine/PointCommands.lean ====
section
/-! DEFINITION. The CurvePoint commands (rules R165 to R172). -/

namespace Sys2Proof.Machine

/-- PADD (R165): the sum of two points. -/
def execPadd (ia ib : Bool) (s : State) : Host.Outcome State Fault Refusal :=
  .next (settle (do
    let P ← decPtA ia s
    let Q ← decPtB ib s
    .ok (encPt (ptAdd P Q))) s)

/-- PDBL (R166): twice a point. -/
def execPdbl (ia : Bool) (s : State) : Host.Outcome State Fault Refusal :=
  .next (settle (do
    let P ← decPtA ia s
    .ok (encPt (ptDbl P))) s)

/-- PMUL (R167): a point times opnd[2] mod n. -/
def execPmul (ia : Bool) (s : State) : Host.Outcome State Fault Refusal :=
  .next (settle (do
    let P ← decPtA ia s
    .ok (encPt (ptMul (decScalar s.opnd2) P))) s)

/-- PNEG (R168): the negative of a point. -/
def execPneg (ia : Bool) (s : State) : Host.Outcome State Fault Refusal :=
  .next (settle (do
    let P ← decPtA ia s
    .ok (encPt (ptNeg P))) s)

/-- PEQ (R169): T and res[0] say whether two points are equal. -/
def execPeq (ia ib : Bool) (s : State) : Host.Outcome State Fault Refusal :=
  .next (settle (do
    let P ← decPtA ia s
    let Q ← decPtB ib s
    .ok (encBool (ptEq P Q))) s)

/-- LIFTX (R170): the even-y point above x. -/
def execLiftx (s : State) : Host.Outcome State Fault Refusal :=
  .next (settle (do
    let x ← decFE s.opnd0
    let P ← liftX x
    .ok (encPt P)) s)

/-- PCHK (R171): a point, checked and returned. -/
def execPchk (ia : Bool) (s : State) : Host.Outcome State Fault Refusal :=
  .next (settle (do
    let P ← decPtA ia s
    .ok (encPt P)) s)

/-- PGEN (R172): the generator. -/
def execPgen (s : State) : Host.Outcome State Fault Refusal :=
  .next (settle (.ok (encPt G)) s)

end Sys2Proof.Machine
end

