-- ==== Sys2Proof/Machine/Schnorr.lean ====
section
/-! DEFINITION. The verifier (rules R220 to R223). -/

namespace Sys2Proof.Machine

/-- Steps 5 to 8 of rule R221 on the point R and the number r. -/
def acceptsPoint (R : Point) (r : Nat) : Bool :=
  match R with
  | .infinity => false
  | .affine x y => if y % 2 = 1 then false else if x ≠ r then false else true

/-- Step 4 of rule R221: R = s·G − e·P. -/
def verifyPoint (s e : Nat) (P : Point) : Point :=
  ptAdd (ptMul s G) (ptNeg (ptMul e P))

/-- `verify(mb, sigb, pkb)` (R221): total, every failure folded into false (R222). -/
def verify (mb sigb pkb : List Byte) : Bool :=
  if p ≤ intOfBytes pkb then false
  else
    match liftX (intOfBytes pkb) with
    | .error _ => false
    | .ok P =>
      let r := intOfBytes (slice sigb 0 32)
      let s := intOfBytes (slice sigb 32 64)
      if p ≤ r then false
      else if n ≤ s then false
      else acceptsPoint (verifyPoint s (chal (slice sigb 0 32) pkb mb) P) r

end Sys2Proof.Machine
end

