-- ==== Sys2Proof/Machine/VerifyCommand.lean ====
section
/-! DEFINITION. The SchnorrVerifier command (rule R224). -/

namespace Sys2Proof.Machine

/-- VERIFY (R224): the operand buffer as a VerificationInput (R86); T and res[0] say whether the signature is valid;
never an error. -/
def execVerify (s : State) : Host.Outcome State Fault Refusal :=
  .next (settle (.ok (encBool (verify (bytes32 s.opnd0) (bytes32 s.opnd1 ++ bytes32 s.opnd2) (bytes32 s.opnd3)))) s)

end Sys2Proof.Machine
end

