-- ==== Sys2Proof/Machine/Dispatch.lean ====
section
/-! DEFINITION. The effect of each legal command (rule R92): one arm per row of the opcode map (rule R90). -/

namespace Sys2Proof.Machine

def exec (i : Instr) (s : State) : Host.Outcome State Fault Refusal :=
  match i with
  | .fadd => Sys2Proof.Machine.execFadd s
  | .fsub => Sys2Proof.Machine.execFsub s
  | .fmul => Sys2Proof.Machine.execFmul s
  | .fsqr => Sys2Proof.Machine.execFsqr s
  | .fneg => Sys2Proof.Machine.execFneg s
  | .finv => Sys2Proof.Machine.execFinv s
  | .feq => Sys2Proof.Machine.execFeq s
  | .fpar => Sys2Proof.Machine.execFpar s
  | .fdec => Sys2Proof.Machine.execFdec s
  | .padd ia ib => Sys2Proof.Machine.execPadd ia ib s
  | .pdbl ia => Sys2Proof.Machine.execPdbl ia s
  | .pmul ia => Sys2Proof.Machine.execPmul ia s
  | .pneg ia => Sys2Proof.Machine.execPneg ia s
  | .peq ia ib => Sys2Proof.Machine.execPeq ia ib s
  | .liftx => Sys2Proof.Machine.execLiftx s
  | .pchk ia => Sys2Proof.Machine.execPchk ia s
  | .pgen => Sys2Proof.Machine.execPgen s
  | .thash => Sys2Proof.Machine.execThash s
  | .chal => Sys2Proof.Machine.execChal s
  | .verify => Sys2Proof.Machine.execVerify s

end Sys2Proof.Machine
end

