-- ==== Sys2Proof/Machine/HostPort.lean ====
section
/-! DEFINITION. The host port: what each transaction of rule R53 does to the block, and which are refused (rule R54). -/

namespace Sys2Proof.Machine

/-- The effect of a CMD write (R92): a legal word runs its command, any other takes IllegalCommand (R91, R274). -/
def executeCommand (B : List Byte) (s : State) : Host.Outcome State Fault Refusal :=
  match decode B with
  | .ok i => exec i s
  | .error .illegalCommand => .next (raiseError .illegalCommand s)
  | .error .wrongLength => .refused .partialCommandWrite

/-- `MemWrite(off, len(B), B)` (R53, R54). -/
def hostWrite (off : Nat) (B : List Byte) (s : State) : Host.Outcome State Fault Refusal :=
  let last := off + B.length
  if B.length = 0 then .refused .emptyAccess
  else if 0xC8 < last then .refused .outsideWindow
  else if last ≤ 0x80 then .next (s.writeOperandBytes off B)
  else if off < 0x80 then .refused .straddlesRegisters
  else if last ≤ 0xC0 then .next s
  else if off < 0xC0 then .refused .straddlesRegisters
  else if 0xC4 ≤ off then .next s
  else if 0xC4 < last then .refused .straddlesRegisters
  else if B.length = 4 then executeCommand B s
  else .refused .partialCommandWrite

/-- A STATUS read of a shape that R53 lists: the whole word, or 1 or 2 aligned bytes of it. -/
def statusReadOk (off k : Nat) : Bool :=
  k == 4 || k == 1 || (k == 2 && off % 2 == 0)

/-- `MemRead(off, k)` (R53, R54): the bytes become the answer, nothing else changes. -/
def hostRead (off k : Nat) (s : State) : Host.Outcome State Fault Refusal :=
  let last := off + k
  if k = 0 then .refused .emptyAccess
  else if 0xC8 < last then .refused .outsideWindow
  else if last ≤ 0xC0 then .next { s with answer := s.readBytes off k }
  else if off < 0xC0 then .refused .straddlesRegisters
  else if last ≤ 0xC4 then .next { s with answer := s.readBytes off k }
  else if off < 0xC4 then .refused .straddlesRegisters
  else if statusReadOk off k then .next { s with answer := s.readBytes off k }
  else .refused .statusReadShape

/-- One host transaction, whole (R53, R56). The answer is what this transaction returns. -/
def transact (t : Transaction) (s : State) : Host.Outcome State Fault Refusal :=
  let s0 := { s with answer := [] }
  match t with
  | .memWrite off B => hostWrite off B s0
  | .memRead off k => hostRead off k s0
  | .reset => .next (applyReset s0)

/-- The block takes the oldest transaction that waits on its port (R56); with none waiting it stays as it is (R35). -/
def takeTransaction (s : State) : Host.Outcome State Fault Refusal :=
  match s.pending with
  | [] => .next s
  | t :: later => transact t { s with pending := later }

/-- What follows a transaction that went through. -/
def thenDo {α : Type} (o : Host.Outcome State Fault Refusal) (f : State → Host.Outcome α Fault Refusal) :
    Host.Outcome α Fault Refusal :=
  match o with
  | .next s => f s
  | .fault r => .fault r
  | .refused r => .refused r

/-- Host transactions one after another, in the order given (R56). -/
def transactAll : List Transaction → State → Host.Outcome State Fault Refusal
  | [], s => .next s
  | t :: later, s => thenDo (transact t s) (transactAll later)

/-- The CMD write of an opcode-table word stands first on the port. -/
def placeCommand (nbits w : Nat) (s : State) : State :=
  { s with pending := .memWrite 0xC0 (tableWordBytes nbits w) :: s.pending }

end Sys2Proof.Machine
end

