-- ==== Sys2Proof/Machine/Step.lean ====
section
/-! DEFINITION. One step of the machine: one host transaction (rule R56). -/

namespace Sys2Proof.Machine

/-- One step: the oldest waiting host transaction takes its whole effect (R56, R92). -/
def step (s : State) : Host.Outcome State Fault Refusal :=
  takeTransaction s

/-- The state in which the very next step runs the command with this opcode-table word: its CMD write stands first on
the host port (R58: the command word is carried by the CMD write itself; log entry 1). -/
def State.withFetchWord (s : State) (nbits w : Nat) : State :=
  placeCommand nbits w s

end Sys2Proof.Machine
end

