-- ==== Sys2Proof/Config.lean ====
section
/-! DEFINITION. The open parameters of the spec (rule R7, decisions D10, D23, D24): what a platform fixes and no rule of the block depends on. -/

namespace Sys2Proof

/-- The three parameters that rule R7 marks "parameter": a model takes them as arguments. -/
structure Config where
  /-- BASE: the host address at which the register window starts (R7, R50). -/
  base : Nat
  /-- GAS_COST: the fixed cost of one adapter call, "a fixed constant (e.g. 3000)" (R7, R241). -/
  gasCost : Gas
  /-- N_INST: how many block instances the system holds (R7, R60, R270); the spec asks for at least one. -/
  nInst : Nat
  deriving DecidableEq, Repr

/-- R7, R60: a system holds N_INST ≥ 1 instances. -/
def Config.wellFormed (c : Config) : Bool :=
  decide (1 ≤ c.nInst)

/-- The default of GAS_COST (R241, decision D24). -/
def Config.defaultGasCost : Gas := 3000#64

end Sys2Proof
end

