-- ==== Sys2Proof/Machine/HexText.lean ====
section
/-! DEFINITION. Hexadecimal text: digits, numbers and byte strings, as the host script and the test-vector record write them (rules R9, R95, R249). -/

namespace Sys2Proof.Machine

/-- The value of one hexadecimal digit, in capitals or small letters. -/
def hexDigit (c : Char) : Option Nat :=
  let v := c.toNat
  if 0x30 ≤ v ∧ v ≤ 0x39 then some (v - 0x30)
  else if 0x41 ≤ v ∧ v ≤ 0x46 then some (v - 0x41 + 10)
  else if 0x61 ≤ v ∧ v ≤ 0x66 then some (v - 0x61 + 10)
  else none

/-- The number that digits stand for, appended to the number of the digits before them. -/
def hexAppend : List Char → Nat → Option Nat
  | [], acc => some acc
  | c :: rest, acc =>
    match hexDigit c with
    | none => none
    | some d => hexAppend rest (16 * acc + d)

/-- A number of one to `width` digits, the most significant first; missing digits are zeros on the left (R95). -/
def hexNumber (width : Nat) (digits : List Char) : Option Nat :=
  if digits = [] ∨ width < digits.length then none else hexAppend digits 0

/-- A byte string, two digits a byte, the first byte first (R9, R95). R95 pads a value on the left to its width and gives a
byte string none: that an odd number of digits is no byte string, in `WRB` and in a test-vector record (R249), is the
model's DESIGN CHOICE (log entry 16). -/
def hexBytes : List Char → Option (List Byte)
  | [] => some []
  | [_] => none
  | hi :: lo :: rest =>
    match hexDigit hi, hexDigit lo, hexBytes rest with
    | some h, some l, some B => some (BitVec.ofNat 8 (16 * h + l) :: B)
    | _, _, _ => none

end Sys2Proof.Machine
end

