-- ==== Sys2Proof/Machine/Adapter.lean ====
section
/-! DEFINITION. The PrecompileAdapter, host software outside the block, at its boundary (rules R240 to R249). -/

namespace Sys2Proof.Machine

/-- What `Run` returns on a call that is not fatal (R240), and the block it leaves. -/
structure RunResult where
  /-- `outputBytes`. -/
  output : List Byte
  /-- `gasUsed`. -/
  gasUsed : Gas
  /-- The block instance after the call. -/
  block : State
  deriving DecidableEq, Repr

/-- `RequiredGas(inputBytes)` (R241): the constant, whatever the input. -/
def requiredGas (c : Config) (_input : List Byte) : Gas :=
  c.gasCost

/-- The output of a verification failure, 32 zero bytes (R244, R246). -/
def falseOutput : List Byte :=
  bytes32 0#256

/-- The three transactions of a call with 128 input bytes (R245). -/
def verifyCall (input : List Byte) : List Transaction :=
  [.memWrite 0x00 input, .memWrite 0xC0 [0x00#8, 0x00#8, 0x00#8, 0x40#8], .memRead 0x80 32]

/-- `Run(gasAvailable, inputBytes)` on a block instance that no other caller is using (R240 to R248): the gas check
first, then the length check, then the call. Out of gas is fatal and gives no output (log entry 11). -/
def adapterRun (c : Config) (gasAvailable : Gas) (input : List Byte) (s : State) : Host.Outcome RunResult Fault Refusal :=
  if gasAvailable < requiredGas c input then .fault .outOfGas
  else if input.length ≠ 128 then .next ⟨falseOutput, c.gasCost, s⟩
  else thenDo (transactAll (verifyCall input) s) (fun s' => .next ⟨s'.answer, c.gasCost, s'⟩)

/-- A test-vector record as the fixture file writes it (R249), with its five fields. -/
structure TestRecord where
  /-- `Input`, a hexadecimal string. -/
  input : String
  /-- `Expected`, a hexadecimal string or the empty string. -/
  expected : String
  /-- `Gas`. -/
  gas : Gas
  /-- `Name`. -/
  name : String
  /-- `NoBenchmark`. -/
  noBenchmark : Bool
  deriving DecidableEq, Repr

/-- A test-vector record (R249), its hexadecimal strings already read as bytes. -/
structure TestVector where
  /-- `Input`. -/
  input : List Byte
  /-- `Expected`; empty means "expect all-zero/false". -/
  expected : List Byte
  /-- `Gas`. -/
  gas : Gas
  /-- `Name`. -/
  name : String
  /-- `NoBenchmark`. -/
  noBenchmark : Bool
  deriving DecidableEq, Repr

/-- The record with its hexadecimal strings read as bytes (R249); none when one of them is no byte string. -/
def TestRecord.vector (r : TestRecord) : Option TestVector :=
  match hexBytes r.input.toList, hexBytes r.expected.toList with
  | some input, some expected => some ⟨input, expected, r.gas, r.name, r.noBenchmark⟩
  | _, _ => none

/-- The output a record expects (R249): an empty `Expected` stands for the all-zero output. -/
def TestVector.expectedOutput (v : TestVector) : List Byte :=
  if v.expected = [] then falseOutput else v.expected

/-- The adapter satisfies the record (R249). A record has no gasAvailable: that it is run with its own `Gas`, the fixed
cost, as gasAvailable is the model's DESIGN CHOICE (log entry 17; safe). -/
def TestVector.satisfied (v : TestVector) (c : Config) (s : State) : Bool :=
  match adapterRun c v.gas v.input s with
  | .next r => decide (r.output = v.expectedOutput) && decide (r.gasUsed = v.gas)
  | .fault _ => false
  | .refused _ => false

end Sys2Proof.Machine
end

