-- ==== Sys2Proof/Machine/Platform.lean ====
section
/-! DEFINITION. The two platform parameters that place and count the block: BASE (rule R50) and N_INST (rules R60, R270). -/

namespace Sys2Proof.Machine

/-- A host write at an address of the host's own map: the register window starts at BASE (R7, R50). Addresses below
the window belong to the platform and are refused (log entry 10). -/
def busWrite (c : Config) (addr : Nat) (B : List Byte) (s : State) : Host.Outcome State Fault Refusal :=
  if addr < c.base then .refused .outsideWindow else transact (.memWrite (addr - c.base) B) s

/-- A host read at an address of the host's own map (R7, R50). -/
def busRead (c : Config) (addr k : Nat) (s : State) : Host.Outcome State Fault Refusal :=
  if addr < c.base then .refused .outsideWindow else transact (.memRead (addr - c.base) k) s

/-- N_INST block instances, which share nothing (R60, R270). -/
structure System where
  /-- The instances. -/
  blocks : List State
  deriving DecidableEq, Repr

/-- Every instance starts in the reset state, independently (R270). -/
def System.reset (c : Config) : System :=
  ⟨List.replicate c.nInst State.reset⟩

/-- A host transaction on instance `k`: that instance alone takes it (R60, R270). -/
def System.transactAt (k : Nat) (t : Transaction) (sys : System) : Host.Outcome System Fault Refusal :=
  match sys.blocks[k]? with
  | none => .refused .noSuchInstance
  | some s => thenDo (transact t s) (fun s' => .next ⟨sys.blocks.set k s'⟩)

end Sys2Proof.Machine
end

