-- ==== Sys2Proof/Machine/Script.lean ====
section
/-! DEFINITION. The host script: its lines as transactions and its pseudo-operations (rules R95, R96). -/

namespace Sys2Proof.Machine

/-- A line of a host script (R95). -/
inductive ScriptLine where
  /-- `RESET`. -/
  | reset
  /-- `WR o<i>, <hex32>`. -/
  | wr (i : Fin 4) (v : Reg)
  /-- `WRB <off>, <hexbytes>`. R95 gives it for an operand-buffer offset; that any other offset also makes a line, which is
  the MemWrite it names, is the model's DESIGN CHOICE (log entry 16). -/
  | wrb (off : Nat) (bytes : List Byte)
  /-- `<MNEMONIC>`, with the flags `ia`, `ib` that the command carries. -/
  | command (i : Instr)
  /-- `CMD <hex8>`. -/
  | cmd (w : Word32)
  /-- `RD r<i>`. -/
  | rd (i : Fin 2)
  /-- `RDO o<i>`. -/
  | rdo (i : Fin 4)
  /-- `RDS`. -/
  | rds
  deriving DecidableEq, Repr

/-- A pseudo-operation of the host script (R96). -/
inductive PseudoLine where
  /-- `MV o<i>, r<j>`. -/
  | mv (i : Fin 4) (j : Fin 2)
  /-- `MVP oa, r`. -/
  | mvpA
  /-- `MVP ob, r`. -/
  | mvpB
  /-- `LDV <hex128>`. -/
  | ldv (bytes : List Byte)
  /-- `FTOB`. -/
  | ftob
  deriving DecidableEq, Repr

/-- The transaction of a script line, its encoding (R95). -/
def ScriptLine.transaction : ScriptLine → Transaction
  | .reset => .reset
  | .wr i v => .memWrite (0x20 * i.val) (bytes32 v)
  | .wrb off bytes => .memWrite off bytes
  | .command i => .memWrite 0xC0 (encodeBytes i)
  | .cmd w => .memWrite 0xC0 (bytes4 w)
  | .rd i => .memRead (0x80 + 0x20 * i.val) 32
  | .rdo i => .memRead (0x20 * i.val) 32
  | .rds => .memRead 0xC4 4

/-- A script line, run on the block. -/
def ScriptLine.run (l : ScriptLine) (s : State) : Host.Outcome State Fault Refusal :=
  transact l.transaction s

/-- `MV o<i>, r<j>` (R96): the host reads a result register and writes the bytes it read. -/
def moveResult (i : Fin 4) (j : Fin 2) (s : State) : Host.Outcome State Fault Refusal :=
  thenDo (ScriptLine.run (.rd j) s) (fun s' => transact (.memWrite (0x20 * i.val) s'.answer) s')

/-- A pseudo-operation, expanded and run (R96). Reads and operand writes leave STATUS alone, so INF, which the host
carries from a MVP into the next command's `ia` or `ib`, still stands there (log entry 13). -/
def PseudoLine.run (l : PseudoLine) (s : State) : Host.Outcome State Fault Refusal :=
  match l with
  | .mv i j => moveResult i j s
  | .mvpA => thenDo (moveResult 0 0 s) (moveResult 1 1)
  | .mvpB => thenDo (moveResult 2 0 s) (moveResult 3 1)
  | .ldv bytes => ScriptLine.run (.wrb 0x00 bytes) s
  | .ftob => ScriptLine.run (.command .fdec) s

end Sys2Proof.Machine
end

