-- ==== Sys2Proof/Safety.lean ====
section
/-! DEFINITION. What counts as a consistent state and a safe run, in the terms the statements use. -/

namespace Sys2Proof.Machine

/-- ERR holds one of the five codes of rule R261; codes 5 to 15 are never produced (R30). -/
def State.errLegal (s : State) : Bool :=
  decide (s.status.err.toNat ≤ 4)

/-- Before the first command since reset (DONE = 0) the results and the rest of STATUS are zero (R30, R34). -/
def State.idleIsZero (s : State) : Bool :=
  s.status.done || (decide (s.res0 = 0#256) && decide (s.res1 = 0#256) && decide (s.status = ⟨false, false, false, 0#4⟩))

/-- An error leaves the results, T and INF zero (R262). -/
def State.errorIsZero (s : State) : Bool :=
  decide (s.status.err = 0#4) ||
    (decide (s.res0 = 0#256) && decide (s.res1 = 0#256) && !s.status.t && !s.status.inf)

/-- INF stands with two zero results and T clear (R30, R83). -/
def State.infinityIsZero (s : State) : Bool :=
  !s.status.inf || (decide (s.res0 = 0#256) && decide (s.res1 = 0#256) && !s.status.t)

/-- T stands with the results of a true boolean, res[0] = 1 and res[1] = 0 (R87). -/
def State.truthIsOne (s : State) : Bool :=
  !s.status.t || (decide (s.res0 = 1#256) && decide (s.res1 = 0#256))

/-- The second result register is not zero only after a finite point, and then (res[0], res[1]) is a point of the
curve with reduced coordinates (R20, R21, R83). -/
def State.pointOnCurve (s : State) : Bool :=
  decide (s.res1 = 0#256) || (Point.affine s.res0.toNat s.res1.toNat).valid

/-- The invariant of the block's result registers and STATUS (R21, R30, R34, R83, R87, R262). -/
def State.consistent (s : State) : Bool :=
  s.errLegal && s.idleIsZero && s.errorIsZero && s.infinityIsZero && s.truthIsOne && s.pointOnCurve

/-- The transactions that have a meaning: the rows of rule R53's table, written down once more as a table, with the
reads of a part of CMD that log entry 4 adds. -/
def Transaction.legal : Transaction → Bool
  | .memWrite off B =>
    decide (1 ≤ B.length) &&
      (decide (off + B.length ≤ 0x80) ||
       (decide (0x80 ≤ off) && decide (off + B.length ≤ 0xC0)) ||
       (decide (off = 0xC0) && decide (B.length = 4)) ||
       (decide (0xC4 ≤ off) && decide (off + B.length ≤ 0xC8)))
  | .memRead off k =>
    decide (1 ≤ k) &&
      (decide (off + k ≤ 0xC0) ||
       (decide (0xC0 ≤ off) && decide (off + k ≤ 0xC4)) ||
       (decide (off = 0xC4) && decide (k = 4)) ||
       (decide (0xC4 ≤ off) && decide (off + k ≤ 0xC8) && (decide (k = 1) || (decide (k = 2) && decide (off % 2 = 0)))))
  | .reset => true

/-- A host program that is safe to run: every transaction that waits on the port has a meaning (R53, R54). -/
def State.hostLegal (s : State) : Bool :=
  s.pending.all Transaction.legal

/-- The hazard of rule R293: an inversion of zero, whose value "callers must not rely on". The block executes it all
the same (R127). -/
def invertsZero (i : Instr) (s : State) : Bool :=
  decide (i = .finv) && decide (s.opnd0 = 0#256)

end Sys2Proof.Machine
end

