-- ==== Sys2Proof/Certificates/Slice0/Obligations.lean ====
section
/-! DEFINITION. The statements for the provers, and the few shapes of a next state that they share. -/

namespace Sys2Proof.Statements

open Sys2Proof.Machine

/-- The state after a command that returned one number and no flag (R92): everything not named is unchanged. -/
def valueState (s : State) (v : Nat) : State :=
  { s with res0 := BitVec.ofNat 256 v, res1 := 0#256, status := ⟨true, false, false, 0#4⟩ }

/-- The state after a command that returned a boolean (R87, R92). -/
def boolState (s : State) (b : Bool) : State :=
  { s with res0 := if b then 1#256 else 0#256, res1 := 0#256, status := ⟨true, b, false, 0#4⟩ }

/-- The state after a command that returned a point (R83, R92). -/
def pointState (s : State) : Point → State
  | .infinity => { s with res0 := 0#256, res1 := 0#256, status := ⟨true, false, true, 0#4⟩ }
  | .affine x y =>
    { s with res0 := BitVec.ofNat 256 x, res1 := BitVec.ofNat 256 y, status := ⟨true, false, false, 0#4⟩ }

/-- The state after a command that raised the error with this code (R92, R262). -/
def errorState (s : State) (code : BitVec 4) : State :=
  { s with res0 := 0#256, res1 := 0#256, status := ⟨true, false, false, code⟩ }

/-- x and y are the coordinates of a point of the curve, both below p (R82, R150). -/
def IsPoint (x y : Nat) : Prop :=
  x < p ∧ y < p ∧ (y * y) % p = (x * x * x + 7) % p

/-- The point operand in two registers with its flag is P (R82). -/
def Holds (inf : Bool) (vx vy : Reg) (P : Point) : Prop :=
  (inf = true ∧ P = .infinity) ∨
  (inf = false ∧ IsPoint vx.toNat vy.toNat ∧ P = .affine vx.toNat vy.toNat)

/-- The point operand in two registers with its flag fails with this error code (R82, R93): a coordinate out of range
before the curve equation. -/
def FailsWith (inf : Bool) (vx vy : Reg) (code : BitVec 4) : Prop :=
  (inf = false ∧ (p ≤ vx.toNat ∨ p ≤ vy.toNat) ∧ code = 2#4) ∨
  (inf = false ∧ vx.toNat < p ∧ vy.toNat < p ∧ (vy.toNat * vy.toNat) % p ≠ (vx.toNat * vx.toNat * vx.toNat + 7) % p
    ∧ code = 4#4)

/-- The nine field commands (R122 to R130). -/
def fieldCommands : List Instr := [.fadd, .fsub, .fmul, .fsqr, .fneg, .finv, .feq, .fpar, .fdec]

/-- STATUS, res[0] and res[1] agree: what a command writes (R31). -/
def SameResult (s t : State) : Prop :=
  s.res0 = t.res0 ∧ s.res1 = t.res1 ∧ s.status = t.status

/-- w is the first 32 bits of the fractional part of the k-th root of q (R192). -/
def IsRootBits (k q : Nat) (w : Word32) : Prop :=
  ∃ r : Nat, r ^ k ≤ q * 2 ^ (32 * k) ∧ q * 2 ^ (32 * k) < (r + 1) ^ k ∧ w.toNat = r % 2 ^ 32

/-- W[0..63] is the message schedule of the block that begins at byte `start` of a padded message (R191, R193). -/
def IsSchedule (padded : List Byte) (start : Nat) (W : Nat → Word32) : Prop :=
  (∀ t : Nat, t < 16 →
    W t = padded.getD (start + 4 * t) 0#8 ++ padded.getD (start + 4 * t + 1) 0#8
      ++ padded.getD (start + 4 * t + 2) 0#8 ++ padded.getD (start + 4 * t + 3) 0#8) ∧
  (∀ t : Nat, 16 ≤ t → t < 64 →
    W t = W (t - 16)
      + ((W (t - 15)).rotateRight 7 ^^^ (W (t - 15)).rotateRight 18 ^^^ W (t - 15) >>> 3)
      + W (t - 7)
      + ((W (t - 2)).rotateRight 17 ^^^ (W (t - 2)).rotateRight 19 ^^^ W (t - 2) >>> 10))

/-- One round takes the working variables a to h, numbered 0 to 7, from v to v' with the constant k and the word w
(R194). -/
def IsRound (v v' : Nat → Word32) (k w : Word32) : Prop :=
  let T1 := v 7 + ((v 4).rotateRight 6 ^^^ (v 4).rotateRight 11 ^^^ (v 4).rotateRight 25)
    + ((v 4 &&& v 5) ^^^ (~~~(v 4) &&& v 6)) + k + w
  let T2 := ((v 0).rotateRight 2 ^^^ (v 0).rotateRight 13 ^^^ (v 0).rotateRight 22)
    + ((v 0 &&& v 1) ^^^ (v 0 &&& v 2) ^^^ (v 1 &&& v 2))
  v' 0 = T1 + T2 ∧ v' 1 = v 0 ∧ v' 2 = v 1 ∧ v' 3 = v 2 ∧ v' 4 = v 3 + T1 ∧ v' 5 = v 4 ∧ v' 6 = v 5 ∧ v' 7 = v 6

end Sys2Proof.Statements

open Sys2Proof Sys2Proof.Machine Sys2Proof.Statements

/-! ### Encoding -/

/-- Words written out from the opcode map, one or more of each component, decode to their commands; the all-zero word, a
FADD word with IA set, a PDBL word with IB set and a VERIFY word with bit 31 set are illegal. -/
def Obligations.OpcodeWordsDecodeToTheirCommands : Prop :=
  decodeWord 0x00000010#32 = .ok .fadd ∧ decodeWord 0x00000018#32 = .ok .fdec ∧
  decodeWord 0x00000320#32 = .ok (.padd true true) ∧ decodeWord 0x00000220#32 = .ok (.padd false true) ∧
  decodeWord 0x00000122#32 = .ok (.pmul true) ∧ decodeWord 0x00000025#32 = .ok .liftx ∧
  decodeWord 0x00000030#32 = .ok .thash ∧ decodeWord 0x00000031#32 = .ok .chal ∧
  decodeWord 0x00000040#32 = .ok .verify ∧
  decodeWord 0x00000000#32 = .error .illegalCommand ∧ decodeWord 0x00000110#32 = .error .illegalCommand ∧
  decodeWord 0x00000221#32 = .error .illegalCommand ∧ decodeWord 0x80000040#32 = .error .illegalCommand

/-- Decode and encode agree, on every byte string and every command: bytes decode to a command exactly when they are
the four bytes of its word. No bit of a word is dropped and no second word decodes to a command. -/
def Obligations.BytesDecodeExactlyToEncodedCommand : Prop :=
  ∀ (B : List Byte) (i : Instr), decode B = .ok i ↔ B = encodeBytes i

/-- The rows of the opcode map are disjoint: no word matches two of them. -/
def Obligations.OpcodeRowsAreDisjoint : Prop :=
  opcodeMap.Pairwise (fun a b => ∀ w : Word32, ¬(a.matchesWord w = true ∧ b.matchesWord w = true))

/-- A word is illegal exactly when its opcode is not in the map, or IA or IB is set in a format without it, or a bit of
31:10 is set. -/
def Obligations.WordIsIllegalExactlyWhenFieldsAre : Prop :=
  ∀ w : Word32, decodeWord w = .error .illegalCommand ↔ (fieldsOfWord w).wellFormed = false

/-- The four fields make up the whole word, and each field is read back from the word it was put in. -/
def Obligations.FieldsMakeUpTheWord : Prop :=
  (∀ w : Word32, (fieldsOfWord w).word = w) ∧ (∀ f : CmdFields, fieldsOfWord f.word = f)

/-! ### Steps -/

/-- When the oldest waiting transaction is a CMD write of bytes that decode to a command, the step is that command's
effect, after the transaction has left the port and the port's answer is cleared (the port's two fields are the model's own:
log entries 1 and 2). -/
def Obligations.StepRunsTheDecodedCommand : Prop :=
  ∀ (s : State) (B : List Byte) (later : List Transaction) (i : Instr),
    s.pending = .memWrite 0xC0 B :: later → decode B = .ok i →
      step s = exec i { s with pending := later, answer := [] }

/-- A CMD write of a word that is not a legal command (its opcode is not in the map, IA or IB is set in a format without
it, or a bit of 31:10 is set) has the error outcome with code 1, after the transaction has left the port and the port's
answer is cleared (the port's two fields are the model's own: log entries 1 and 2). -/
def Obligations.IllegalWordTakesIllegalCommand : Prop :=
  ∀ (s : State) (w : Word32) (later : List Transaction),
    s.pending = .memWrite 0xC0 (bytes4 w) :: later → (fieldsOfWord w).wellFormed = false →
      step s = .next (errorState { s with pending := later, answer := [] } 1#4)

/-- With no transaction waiting the block stays as it is (the model's choice of what a step is then: log entry 1). -/
def Obligations.IdleBlockStaysAsItIs : Prop :=
  ∀ s : State, s.pending = [] → step s = .next s

/-- No step of the block stops with a fault: an error of a command is a next state. -/
def Obligations.NoStepEndsInAFault : Prop :=
  ∀ (s : State) (f : Fault), step s ≠ .fault f

/-- A step with a waiting transaction answers a next state exactly when that transaction has a meaning. That reads of a part
of CMD have one, and that empty accesses and other shapes of STATUS reads have none, is the model's choice (log entries 4
and 6). -/
def Obligations.StepAnswersExactlyTheLegalTransactions : Prop :=
  ∀ (s : State) (t : Transaction) (later : List Transaction), s.pending = t :: later →
    ((∃ s', step s = .next s') ↔ t.legal = true)

/-- A host program of legal transactions (log entries 1, 4, 6) runs for any number of steps. -/
def Obligations.LegalHostProgramNeverStops : Prop :=
  ∀ (k : Nat) (s : State), s.hostLegal = true → ∃ t : State, Host.Core.run core k s = .next t

/-! ### FieldElement commands -/

/-- FADD: word, result with every other piece of state unchanged, and error. -/
def Obligations.FaddAddsModuloP : Prop :=
  decodeWord 0x00000010#32 = .ok .fadd ∧
  ∀ s : State,
    (s.opnd0.toNat < p → s.opnd1.toNat < p →
      exec .fadd s = .next (valueState s ((s.opnd0.toNat + s.opnd1.toNat) % p))) ∧
    (p ≤ s.opnd0.toNat ∨ p ≤ s.opnd1.toNat → exec .fadd s = .next (errorState s 2#4))

/-- FSUB: the integer difference modulo p, never negative and never wrapped through 2^256. -/
def Obligations.FsubSubtractsModuloP : Prop :=
  decodeWord 0x00000011#32 = .ok .fsub ∧
  ∀ s : State,
    (s.opnd0.toNat < p → s.opnd1.toNat < p →
      exec .fsub s = .next (valueState s (((s.opnd0.toNat : Int) - (s.opnd1.toNat : Int)) % (p : Int)).toNat)) ∧
    (p ≤ s.opnd0.toNat ∨ p ≤ s.opnd1.toNat → exec .fsub s = .next (errorState s 2#4))

/-- FMUL: the full product modulo p. -/
def Obligations.FmulMultipliesModuloP : Prop :=
  decodeWord 0x00000012#32 = .ok .fmul ∧
  ∀ s : State,
    (s.opnd0.toNat < p → s.opnd1.toNat < p →
      exec .fmul s = .next (valueState s ((s.opnd0.toNat * s.opnd1.toNat) % p))) ∧
    (p ≤ s.opnd0.toNat ∨ p ≤ s.opnd1.toNat → exec .fmul s = .next (errorState s 2#4))

/-- FSQR: the square modulo p; opnd[1] plays no part. -/
def Obligations.FsqrSquaresModuloP : Prop :=
  decodeWord 0x00000013#32 = .ok .fsqr ∧
  ∀ s : State,
    (s.opnd0.toNat < p → exec .fsqr s = .next (valueState s ((s.opnd0.toNat * s.opnd0.toNat) % p))) ∧
    (p ≤ s.opnd0.toNat → exec .fsqr s = .next (errorState s 2#4))

/-- FNEG: 0 for 0, p − a otherwise. -/
def Obligations.FnegNegatesModuloP : Prop :=
  decodeWord 0x00000014#32 = .ok .fneg ∧
  ∀ s : State,
    (s.opnd0.toNat < p →
      exec .fneg s = .next (valueState s (if s.opnd0.toNat = 0 then 0 else p - s.opnd0.toNat))) ∧
    (p ≤ s.opnd0.toNat → exec .fneg s = .next (errorState s 2#4))

/-- FINV: the power a^(p−2) modulo p, zero for zero with no error; for a ≠ 0 the one b in [1, p) with a·b = 1. -/
def Obligations.FinvInvertsModuloP : Prop :=
  decodeWord 0x00000015#32 = .ok .finv ∧
  ∀ s : State,
    (s.opnd0.toNat < p → exec .finv s = .next (valueState s (s.opnd0.toNat ^ (p - 2) % p))) ∧
    (s.opnd0 = 0#256 → exec .finv s = .next (valueState s 0)) ∧
    (∀ b : Nat, 0 < s.opnd0.toNat → s.opnd0.toNat < p → 1 ≤ b → b < p →
      ((s.opnd0.toNat * b) % p = 1 ↔ exec .finv s = .next (valueState s b))) ∧
    (p ≤ s.opnd0.toNat → exec .finv s = .next (errorState s 2#4))

/-- FEQ: equality of two FieldElements, in T and res[0]. -/
def Obligations.FeqComparesFieldElements : Prop :=
  decodeWord 0x00000016#32 = .ok .feq ∧
  ∀ s : State,
    (s.opnd0.toNat < p → s.opnd1.toNat < p → exec .feq s = .next (boolState s (decide (s.opnd0 = s.opnd1)))) ∧
    (p ≤ s.opnd0.toNat ∨ p ≤ s.opnd1.toNat → exec .feq s = .next (errorState s 2#4))

/-- FPAR: the lowest bit of the FieldElement, 1 for odd, in T and res[0]. -/
def Obligations.FparGivesTheLowestBit : Prop :=
  decodeWord 0x00000017#32 = .ok .fpar ∧
  ∀ s : State,
    (s.opnd0.toNat < p → exec .fpar s = .next (boolState s (s.opnd0.getLsbD 0))) ∧
    (p ≤ s.opnd0.toNat → exec .fpar s = .next (errorState s 2#4))

/-- FDEC: the operand itself when it is below p, OutOfRangeError exactly when it is not. -/
def Obligations.FdecChecksTheRange : Prop :=
  decodeWord 0x00000018#32 = .ok .fdec ∧
  ∀ s : State,
    (s.opnd0.toNat < p → exec .fdec s = .next (valueState s s.opnd0.toNat)) ∧
    (exec .fdec s = .next (errorState s 2#4) ↔ p ≤ s.opnd0.toNat)

/-- Every field command's res[0] is below p: a FieldElement, or the 0 or 1 of FEQ and FPAR, or the 0 of an error. -/
def Obligations.FieldResultsAreReduced : Prop :=
  ∀ (i : Instr) (s t : State), i ∈ fieldCommands → exec i s = .next t → t.res0.toNat < p

/-- The laws of the field on reduced numbers. -/
def Obligations.FieldLawsHold : Prop :=
  (∀ a b, feAdd a b = feAdd b a) ∧ (∀ a b, feMul a b = feMul b a) ∧
  (∀ a b c, a < p → b < p → c < p →
    feAdd (feAdd a b) c = feAdd a (feAdd b c) ∧ feMul (feMul a b) c = feMul a (feMul b c) ∧
    feMul a (feAdd b c) = feAdd (feMul a b) (feMul a c)) ∧
  (∀ a, a < p → feAdd a 0 = a ∧ feMul a 1 = a ∧ feSqr a = feMul a a) ∧
  (∀ a b, a < p → b < p → feSub a b = feAdd a (feNeg b)) ∧
  (∀ a, 0 < a → a < p → feMul a (feInv a) = 1) ∧ feInv 0 = 0

/-! ### CurvePoint commands -/

/-- PADD: the sum by the group law, the check order of its operands, the flags that skip them. -/
def Obligations.PaddAddsPoints : Prop :=
  (∀ ia ib : Bool, decodeWord (0x00000020#32 + (if ia then 0x100#32 else 0#32) + (if ib then 0x200#32 else 0#32))
    = .ok (.padd ia ib)) ∧
  ∀ (s : State) (ia ib : Bool) (P Q : Point) (c : BitVec 4),
    (Holds ia s.opnd0 s.opnd1 P → Holds ib s.opnd2 s.opnd3 Q →
      exec (.padd ia ib) s = .next (pointState s (ptAdd P Q))) ∧
    (FailsWith ia s.opnd0 s.opnd1 c → exec (.padd ia ib) s = .next (errorState s c)) ∧
    (Holds ia s.opnd0 s.opnd1 P → FailsWith ib s.opnd2 s.opnd3 c →
      exec (.padd ia ib) s = .next (errorState s c))

/-- PDBL: twice the point, never O for a finite one, the same as PADD of the point with itself. -/
def Obligations.PdblDoublesThePoint : Prop :=
  (∀ ia : Bool, decodeWord (0x00000021#32 + (if ia then 0x100#32 else 0#32)) = .ok (.pdbl ia)) ∧
  ∀ (s : State) (ia : Bool) (P : Point) (c : BitVec 4),
    (Holds ia s.opnd0 s.opnd1 P → exec (.pdbl ia) s = .next (pointState s (ptDbl P))) ∧
    (Holds ia s.opnd0 s.opnd1 P → (ptDbl P = .infinity ↔ P = .infinity)) ∧
    (FailsWith ia s.opnd0 s.opnd1 c → exec (.pdbl ia) s = .next (errorState s c)) ∧
    (s.opnd2 = s.opnd0 → s.opnd3 = s.opnd1 → exec (.padd ia ia) s = exec (.pdbl ia) s)

/-- PMUL: the point added to itself (opnd[2] mod n) times. -/
def Obligations.PmulAddsThePointRepeatedly : Prop :=
  (∀ ia : Bool, decodeWord (0x00000022#32 + (if ia then 0x100#32 else 0#32)) = .ok (.pmul ia)) ∧
  ∀ (s : State) (ia : Bool) (P : Point) (c : BitVec 4),
    (Holds ia s.opnd0 s.opnd1 P →
      exec (.pmul ia) s = .next (pointState s (ptMulIter (s.opnd2.toNat % n) P))) ∧
    (FailsWith ia s.opnd0 s.opnd1 c → exec (.pmul ia) s = .next (errorState s c))

/-- PNEG: O for O; for a finite point the same x and p − y, of the other parity. -/
def Obligations.PnegNegatesThePoint : Prop :=
  (∀ ia : Bool, decodeWord (0x00000023#32 + (if ia then 0x100#32 else 0#32)) = .ok (.pneg ia)) ∧
  ∀ (s : State) (ia : Bool) (c : BitVec 4),
    (ia = true → exec (.pneg ia) s = .next (pointState s .infinity)) ∧
    (ia = false → IsPoint s.opnd0.toNat s.opnd1.toNat →
      exec (.pneg ia) s = .next (pointState s (.affine s.opnd0.toNat (p - s.opnd1.toNat))) ∧
      p - s.opnd1.toNat < p ∧ (p - s.opnd1.toNat) % 2 ≠ s.opnd1.toNat % 2) ∧
    (FailsWith ia s.opnd0 s.opnd1 c → exec (.pneg ia) s = .next (errorState s c))

/-- PEQ: equality of two points in T and res[0]; an operand that is no point makes the command fail. -/
def Obligations.PeqComparesPoints : Prop :=
  (∀ ia ib : Bool, decodeWord (0x00000024#32 + (if ia then 0x100#32 else 0#32) + (if ib then 0x200#32 else 0#32))
    = .ok (.peq ia ib)) ∧
  ∀ (s : State) (ia ib : Bool) (P Q : Point) (c : BitVec 4),
    (Holds ia s.opnd0 s.opnd1 P → Holds ib s.opnd2 s.opnd3 Q →
      exec (.peq ia ib) s = .next (boolState s (decide (P = Q)))) ∧
    (FailsWith ia s.opnd0 s.opnd1 c → exec (.peq ia ib) s = .next (errorState s c)) ∧
    (Holds ia s.opnd0 s.opnd1 P → FailsWith ib s.opnd2 s.opnd3 c →
      exec (.peq ia ib) s = .next (errorState s c))

/-- LIFTX: the one point above x with even y; InvalidXCoordinateError exactly when no point lies above x; out of range
first. -/
def Obligations.LiftxFindsTheEvenPoint : Prop :=
  decodeWord 0x00000025#32 = .ok .liftx ∧
  ∀ s : State,
    (∀ y : Nat, IsPoint s.opnd0.toNat y → y % 2 = 0 →
      exec .liftx s = .next (pointState s (.affine s.opnd0.toNat y))) ∧
    (∀ y : Nat, IsPoint s.opnd0.toNat y → y % 2 = 1 →
      exec .liftx s = .next (pointState s (.affine s.opnd0.toNat (p - y)))) ∧
    (s.opnd0.toNat < p →
      (exec .liftx s = .next (errorState s 3#4) ↔ ∀ y : Nat, ¬IsPoint s.opnd0.toNat y)) ∧
    (p ≤ s.opnd0.toNat → exec .liftx s = .next (errorState s 2#4))

/-- PCHK: a valid point comes back unchanged, INF = IA; anything else fails. -/
def Obligations.PchkReturnsAValidPoint : Prop :=
  (∀ ia : Bool, decodeWord (0x00000026#32 + (if ia then 0x100#32 else 0#32)) = .ok (.pchk ia)) ∧
  ∀ (s : State) (ia : Bool) (P : Point) (c : BitVec 4),
    (Holds ia s.opnd0 s.opnd1 P → exec (.pchk ia) s = .next (pointState s P)) ∧
    (FailsWith ia s.opnd0 s.opnd1 c → exec (.pchk ia) s = .next (errorState s c))

/-- PGEN: the generator's coordinates, whatever the state. -/
def Obligations.PgenReturnsTheGenerator : Prop :=
  decodeWord 0x00000027#32 = .ok .pgen ∧
  ∀ s : State, exec .pgen s = .next (pointState s (.affine
    0x79BE667EF9DCBBAC55A06295CE870B07029BFCDB2DCE28D959F2815B16F81798
    0x483ADA7726A3C4655DA4FBFC0E1108A8FD17B448A68554199C47D08FFB10D4B8))

/-- The on-curve predicate of FieldElements is the curve equation over the integers, O is a CurvePoint, and the rule's
examples: G, (1, 1), (0, 0), and no point with x = 0 or y = 0. -/
def Obligations.OnCurvePredicateAndItsExamples : Prop :=
  Point.infinity.valid = true ∧
  (∀ x y : Nat, x < p → y < p → (onCurve x y = true ↔ ((y : Int) * y - x * x * x - 7) % (p : Int) = 0)) ∧
  onCurve Gx Gy = true ∧ onCurve 1 1 = false ∧ onCurve 0 0 = false ∧
  (∀ y : Nat, y < p → onCurve 0 y = false) ∧ (∀ x : Nat, x < p → onCurve x 0 = false)

/-- The points of the curve are a commutative group under point addition: closed, associative, commutative, with O
neutral and `ptNeg` the inverse. -/
def Obligations.PointsFormACommutativeGroup : Prop :=
  ∀ P Q R : Point, P.valid = true → Q.valid = true → R.valid = true →
    (ptAdd P Q).valid = true ∧ (ptNeg P).valid = true ∧
    ptAdd (ptAdd P Q) R = ptAdd P (ptAdd Q R) ∧ ptAdd P Q = ptAdd Q P ∧
    ptAdd .infinity P = P ∧ ptAdd P .infinity = P ∧ ptAdd P (ptNeg P) = .infinity

/-- The sum of two points with different x is the third point of their chord, mirrored: the slope times the difference
of the x is the difference of the y, and the sum's coordinates follow from the slope, all as integers modulo p. -/
def Obligations.SumOfTwoPointsLiesOnTheChord : Prop :=
  ∀ x1 y1 x2 y2 : Nat, IsPoint x1 y1 → IsPoint x2 y2 → x1 ≠ x2 →
    ∃ lam x3 y3 : Nat, ptAdd (.affine x1 y1) (.affine x2 y2) = .affine x3 y3 ∧ x3 < p ∧ y3 < p ∧
      ((lam : Int) * ((x2 : Int) - x1)) % p = ((y2 : Int) - y1) % p ∧
      (x3 : Int) = ((lam : Int) * lam - x1 - x2) % p ∧
      (y3 : Int) = ((lam : Int) * ((x1 : Int) - x3) - y1) % p

/-- The curve has prime order n: n times the generator, and n times every other point, is O, and PMUL of any finite
point (the generator among them) answers O exactly for the multiples of n. -/
def Obligations.MultiplesOfTheGenerator : Prop :=
  ptMul n G = .infinity ∧
  (∀ P : Point, P.valid = true → ptMul n P = .infinity) ∧
  ∀ (s : State) (P : Point), Holds false s.opnd0 s.opnd1 P →
    (exec (.pmul false) s = .next (pointState s .infinity) ↔ s.opnd2.toNat % n = 0)

/-! ### TaggedHash commands -/

/-- The padded message is the message, 0x80, fewer than 64 zero bytes, and the bit length as 8 bytes, a multiple of 64
bytes long. The rules give it for messages below 2^61 bytes; that a longer one has its bit length modulo 2^64 is the model's
choice (log entry 9). -/
def Obligations.ShaPaddingFillsBlocks : Prop :=
  ∀ M : List Byte, ∃ z : Nat, z < 64 ∧
    shaPad M = M ++ [0x80#8] ++ List.replicate z 0#8 ++ bytesOfNat 8 (8 * M.length) ∧ (shaPad M).length % 64 = 0

/-- THASH: the tagged hash of the 96 operand bytes in hash order, for every operand; opnd[3] plays no part. -/
def Obligations.ThashIsTheTaggedHash : Prop :=
  decodeWord 0x00000030#32 = .ok .thash ∧
  ∀ s : State, exec .thash s = .next (valueState s (intOfBytes (sha256 (sha256 challengeTag ++ sha256 challengeTag
    ++ bytes32 s.opnd0 ++ bytes32 s.opnd1 ++ bytes32 s.opnd2))))

/-- CHAL: a next state whose res[0] is that of THASH on the same operands, less n when that is n or more; always
below n. -/
def Obligations.ChalReducesTheHash : Prop :=
  decodeWord 0x00000031#32 = .ok .chal ∧
  ∀ s : State, ∃ t : State, exec .thash s = .next t ∧
    exec .chal s = .next (valueState s (if t.res0.toNat < n then t.res0.toNat else t.res0.toNat - n)) ∧
    (if t.res0.toNat < n then t.res0.toNat else t.res0.toNat - n) < n

/-! ### VERIFY -/

/-- VERIFY: a boolean for every operand, never an error. -/
def Obligations.VerifyNeverRaises : Prop :=
  decodeWord 0x00000040#32 = .ok .verify ∧
  ∀ s : State, exec .verify s = .next (boolState s
    (verify (bytes32 s.opnd0) (bytes32 s.opnd1 ++ bytes32 s.opnd2) (bytes32 s.opnd3)))

/-- VERIFY answers false when the public key is p or more or has no point above it, when r is p or more, and when s is
n or more. -/
def Obligations.VerifyRejectsBadRanges : Prop :=
  ∀ s : State,
    (p ≤ s.opnd3.toNat ∨ (∀ y : Nat, ¬IsPoint s.opnd3.toNat y) ∨ p ≤ s.opnd1.toNat ∨ n ≤ s.opnd2.toNat) →
      exec .verify s = .next (boolState s false)

/-- The verification equation: VERIFY answers true exactly when r and the public key are the x-coordinates of points
R and P with even y, s is a scalar, and R + e·P = s·G with e the challenge. -/
def Obligations.VerifyIsTheSchnorrEquation : Prop :=
  ∀ s : State,
    exec .verify s = .next (boolState s true) ↔
      s.opnd2.toNat < n ∧ ∃ ry py : Nat,
        IsPoint s.opnd1.toNat ry ∧ ry % 2 = 0 ∧ IsPoint s.opnd3.toNat py ∧ py % 2 = 0 ∧
        ptAdd (.affine s.opnd1.toNat ry)
          (ptMulIter (chal (bytes32 s.opnd1) (bytes32 s.opnd3) (bytes32 s.opnd0)) (.affine s.opnd3.toNat py))
          = ptMulIter s.opnd2.toNat G

/-- Honest signatures verify: with secret scalars d and k whose points d·G and k·G have even y, r the x of k·G and
s = k + e·d mod n, VERIFY answers true. -/
def Obligations.HonestSignatureVerifies : Prop :=
  ∀ (s : State) (d k py ry : Nat), d < n → k < n →
    ptMul d G = .affine s.opnd3.toNat py → py % 2 = 0 →
    ptMul k G = .affine s.opnd1.toNat ry → ry % 2 = 0 →
    s.opnd2.toNat = (k + chal (bytes32 s.opnd1) (bytes32 s.opnd3) (bytes32 s.opnd0) * d) % n →
      exec .verify s = .next (boolState s true)

/-! ### Reset, frames, purity, invariants -/

/-- After reset every register and every field of STATUS is zero. -/
def Obligations.ResetLeavesEveryRegisterZero : Prop :=
  (∀ i : Fin 4, State.reset.opnd i = 0#256) ∧ State.reset.res0 = 0#256 ∧ State.reset.res1 = 0#256 ∧
  State.reset.status.word = 0#32

/-- A Reset transaction, from any state, zeroes every register; the host's later transactions stay (log entry 1). -/
def Obligations.ResetTransactionZeroesTheBlock : Prop :=
  ∀ (s : State) (later : List Transaction), s.pending = .reset :: later →
    step s = .next { State.reset with pending := later }

/-- Every command answers a next state, sets DONE, and leaves unchanged every operand register, every byte of the
operand buffer as the host reads it, and the port's two fields (the model's own: log entries 1 and 2). -/
def Obligations.CommandsWriteOnlyResultsAndStatus : Prop :=
  ∀ (i : Instr) (s : State), ∃ t : State, exec i s = .next t ∧ t.status.done = true ∧
    (∀ j : Fin 4, t.opnd j = s.opnd j) ∧ (∀ a : Nat, a < 0x80 → t.readByte a = s.readByte a) ∧
    t.pending = s.pending ∧ t.answer = s.answer

/-- What a command writes depends on nothing but the operand registers it reads. -/
def Obligations.ResultDependsOnlyOnOperandsRead : Prop :=
  ∀ (i : Instr) (s s' t t' : State), (∀ j ∈ readsOf i, s.opnd j = s'.opnd j) →
    exec i s = .next t → exec i s' = .next t' → SameResult t t'

/-- An error is not sticky: from the state an error left, a command does exactly what it does without it. -/
def Obligations.ErrorsAreNotSticky : Prop :=
  ∀ (i : Instr) (s : State) (c : BitVec 4), exec i (errorState s c) = exec i s

/-- Which command raises which error: no command raises IllegalCommand, LIFTX alone InvalidXCoordinateError, the six
commands with a point operand alone NotOnCurveError, and PGEN, THASH, CHAL and VERIFY nothing at all. -/
def Obligations.ErrorCodesComeFromTheirCommands : Prop :=
  ∀ (i : Instr) (s t : State), exec i s = .next t →
    t.status.err ≠ 1#4 ∧ (t.status.err = 3#4 → i = .liftx) ∧
    (t.status.err = 4#4 → ∃ ia ib : Bool,
      i = .padd ia ib ∨ i = .pdbl ia ∨ i = .pmul ia ∨ i = .pneg ia ∨ i = .peq ia ib ∨ i = .pchk ia) ∧
    (i = .pgen ∨ i = .thash ∨ i = .chal ∨ i = .verify → t.status.err = 0#4)

/-- A command that ends in an error leaves res, T and INF zero, DONE set, and one of the codes 2, 3, 4. -/
def Obligations.ErrorLeavesZeroResults : Prop :=
  ∀ (i : Instr) (s t : State), exec i s = .next t → t.status.err ≠ 0#4 →
    t = errorState s t.status.err ∧ (t.status.err = 2#4 ∨ t.status.err = 3#4 ∨ t.status.err = 4#4)

/-- Reset is a consistent state. -/
def Obligations.ResetIsConsistent : Prop :=
  State.reset.consistent = true

/-- Every step keeps the block consistent: the error code is legal, an idle or failed block shows zeros, O and true are
encoded as they must be, and a nonzero res[1] is the y of a reduced point of the curve. -/
def Obligations.StepKeepsTheBlockConsistent : Prop :=
  ∀ s s' : State, s.consistent = true → step s = .next s' → s'.consistent = true

/-! ### The register space -/

/-- Big-endian: the byte at the lowest offset of a register is its most significant, STATUS and a written command word
alike. -/
def Obligations.RegisterSpaceIsBigEndian : Prop :=
  (∀ (s : State) (i : Fin 4) (j : Nat), j < 32 →
    s.readByte (0x20 * i.val + j) = some ((s.opnd i).extractLsb' (8 * (31 - j)) 8)) ∧
  (∀ (s : State) (j : Nat), j < 32 →
    s.readByte (0x80 + j) = some (s.res0.extractLsb' (8 * (31 - j)) 8) ∧
    s.readByte (0xA0 + j) = some (s.res1.extractLsb' (8 * (31 - j)) 8)) ∧
  (∀ (s : State) (j : Nat), j < 4 →
    s.readByte (0xC4 + j) = some (s.status.word.extractLsb' (8 * (3 - j)) 8)) ∧
  (∀ b0 b1 b2 b3 : Byte, decode [b0, b1, b2, b3] = decodeWord (b0 ++ b1 ++ b2 ++ b3))

/-- CMD reads zero; the bits of STATUS stand where the field table puts them, and its reserved bits read 0. -/
def Obligations.ControlWordsReadAsTheirFields : Prop :=
  ∀ s : State,
    (∀ j : Nat, j < 4 → s.readByte (0xC0 + j) = some 0#8) ∧
    s.status.word.getLsbD 0 = s.status.done ∧ s.status.word.getLsbD 1 = s.status.t ∧
    s.status.word.getLsbD 2 = s.status.inf ∧ s.status.word.extractLsb' 4 4 = s.status.err ∧
    s.status.word.getLsbD 3 = false ∧ s.status.word.extractLsb' 8 24 = 0#24 ∧
    (∀ a : Nat, 0xC8 ≤ a → s.readByte a = none)

/-- A host write inside the operand buffer: the bytes written read back, every other byte of the register space, the
results, STATUS and the transactions that wait on the port are as before. That the write leaves the port's answer empty is
the model's choice (log entry 2). -/
def Obligations.OperandWriteChangesOnlyItsBytes : Prop :=
  ∀ (s : State) (off : Nat) (B : List Byte), 1 ≤ B.length → off + B.length ≤ 0x80 →
    ∃ t : State, transact (.memWrite off B) s = .next t ∧
      (∀ a : Nat, t.readByte a = if off ≤ a ∧ a < off + B.length then B[a - off]? else s.readByte a) ∧
      t.res0 = s.res0 ∧ t.res1 = s.res1 ∧ t.status = s.status ∧ t.pending = s.pending ∧ t.answer = []

/-- A host write to res or STATUS is ignored: the block is as before. That the write leaves the port's answer empty is the
model's choice (log entry 2). -/
def Obligations.WritesToResultsAndStatusAreIgnored : Prop :=
  ∀ (s : State) (off : Nat) (B : List Byte), 1 ≤ B.length →
    (0x80 ≤ off ∧ off + B.length ≤ 0xC0) ∨ (0xC4 ≤ off ∧ off + B.length ≤ 0xC8) →
      transact (.memWrite off B) s = .next { s with answer := [] }

/-- A host read of the buffers, of CMD, or of STATUS (the whole word, or 1 or 2 aligned bytes of it) answers the bytes that
stand there and changes nothing else. The port's answer is the model's own field (log entry 2), and that a part of CMD can be
read is the model's inference (log entry 4). -/
def Obligations.ReadsAnswerTheBytesAndChangeNothing : Prop :=
  ∀ (s : State) (off k : Nat), 1 ≤ k →
    off + k ≤ 0xC0 ∨ (0xC0 ≤ off ∧ off + k ≤ 0xC4) ∨
      (0xC4 ≤ off ∧ off + k ≤ 0xC8 ∧ (k = 4 ∨ k = 1 ∨ (k = 2 ∧ off % 2 = 0))) →
    ∃ A : List Byte, transact (.memRead off k) s = .next { s with answer := A } ∧ A.length = k ∧
      ∀ a : Nat, a < k → A[a]? = s.readByte (off + a)

/-- The accesses that have no meaning are refused: a partial CMD write, one over two rows of the transaction table, and one
that reaches beyond the window. That they are refused is the rule's; the names of the refusals, and that the window's comes
first, are the model's choice (log entry 5). -/
def Obligations.MeaninglessAccessesAreRefused : Prop :=
  ∀ (s : State) (off k : Nat) (B : List Byte),
    (1 ≤ B.length → 0xC0 ≤ off → off + B.length ≤ 0xC4 → B.length ≠ 4 →
      transact (.memWrite off B) s = .refused .partialCommandWrite) ∧
    (off + B.length ≤ 0xC8 → (off < 0x80 ∧ 0x80 < off + B.length) ∨ (off < 0xC0 ∧ 0xC0 < off + B.length) ∨
        (off < 0xC4 ∧ 0xC4 < off + B.length) →
      transact (.memWrite off B) s = .refused .straddlesRegisters) ∧
    (off + k ≤ 0xC8 → (off < 0xC0 ∧ 0xC0 < off + k) ∨ (off < 0xC4 ∧ 0xC4 < off + k) →
      transact (.memRead off k) s = .refused .straddlesRegisters) ∧
    (1 ≤ B.length → 0xC8 < off + B.length → transact (.memWrite off B) s = .refused .outsideWindow) ∧
    (1 ≤ k → 0xC8 < off + k → transact (.memRead off k) s = .refused .outsideWindow)

/-! ### The host boundary -/

/-- The adapter is the function of rule R248: out of gas before all else; 32 zero bytes for a wrong length, the block
untouched; else the verifier's boolean as a 32-byte integer; always at the fixed cost. -/
def Obligations.AdapterComputesRun : Prop :=
  ∀ (c : Config) (gas : Gas) (input : List Byte) (s : State),
    (gas < c.gasCost → adapterRun c gas input s = .fault .outOfGas) ∧
    (c.gasCost ≤ gas → input.length ≠ 128 → adapterRun c gas input s = .next ⟨bytes32 0#256, c.gasCost, s⟩) ∧
    (c.gasCost ≤ gas → input.length = 128 → ∃ t : State,
      adapterRun c gas input s = .next ⟨bytes32 (if verify (slice input 0 32) (slice input 32 96) (slice input 96 128)
        then 1#256 else 0#256), c.gasCost, t⟩ ∧ t.operandBytes = input)

/-- A transaction on one instance changes no other, and does there what it does on that instance alone (the instances are a
list: log entry 12). -/
def Obligations.InstancesShareNothing : Prop :=
  ∀ (sys sys' : System) (k : Nat) (t : Transaction), System.transactAt k t sys = .next sys' →
    sys'.blocks.length = sys.blocks.length ∧
    (∀ j : Nat, j ≠ k → sys'.blocks[j]? = sys.blocks[j]?) ∧
    ∃ s s' : State, sys.blocks[k]? = some s ∧ sys'.blocks[k]? = some s' ∧ transact t s = .next s'

/-- `MV o<i>, r<j>` copies the result register into the operand register and changes no other register. It is a read and a
write by the host (log entry 13), beside what waits on the port (log entry 1). -/
def Obligations.MoveCopiesResultIntoOperand : Prop :=
  ∀ (s : State) (i : Fin 4) (j : Fin 2), ∃ t : State, PseudoLine.run (.mv i j) s = .next t ∧
    t.opnd i = (if j = 0 then s.res0 else s.res1) ∧ (∀ m : Fin 4, m ≠ i → t.opnd m = s.opnd m) ∧
    SameResult t s ∧ t.pending = s.pending

/-! ### SHA-256 -/

/-- SHA-256 is what its rules say, on every message below 2^61 bytes: there are round constants K, the cube-root bits of
the first 64 primes, and hash values H 0, H 1, …, eight words each, of which H 0 holds the square-root bits of the first
eight primes, such that block b of the padded message has a schedule W b, 64 rounds lead from H b to its last working
variables, H (b + 1) is their sum with H b, and the digest is the last H in big-endian bytes. The spec marks these rules as
general knowledge. -/
def Obligations.Sha256FollowsItsRules : Prop :=
  ∀ M : List Byte, M.length < 2 ^ 61 →
    ∃ (blocks : Nat) (K : Nat → Word32) (H : Nat → Nat → Word32) (W : Nat → Nat → Word32) (v : Nat → Nat → Nat → Word32),
      (shaPad M).length = 64 * blocks ∧
      (∀ q : Nat, q.Prime → Nat.count Nat.Prime q < 64 → IsRootBits 3 q (K (Nat.count Nat.Prime q))) ∧
      (∀ q : Nat, q.Prime → Nat.count Nat.Prime q < 8 → IsRootBits 2 q (H 0 (Nat.count Nat.Prime q))) ∧
      (∀ b : Nat, b < blocks →
        IsSchedule (shaPad M) (64 * b) (W b) ∧
        (∀ j : Nat, j < 8 → v b 0 j = H b j) ∧
        (∀ t : Nat, t < 64 → IsRound (v b t) (v b (t + 1)) (K t) (W b t)) ∧
        (∀ j : Nat, j < 8 → H (b + 1) j = H b j + v b 64 j)) ∧
      (sha256 M).length = 32 ∧
      (∀ j i : Nat, j < 8 → i < 4 → (sha256 M)[4 * j + i]? = some ((H blocks j).extractLsb' (8 * (3 - i)) 8))
end

