-- ==== Sys2Proof/Laws/Bytes.lean ====
section
/-! SUPPORT. Byte strings and numbers: lengths, the two round trips, and single bytes. -/

namespace Sys2Proof.Machine

@[simp] theorem bytesOfNat_length (k v : Nat) : (bytesOfNat k v).length = k := by
  induction k with
  | zero => rfl
  | succ k ih => simp [bytesOfNat, ih]

theorem intOfBytes_append (A B : List Byte) :
    intOfBytes (A ++ B) = intOfBytes A * 256 ^ B.length + intOfBytes B := by
  induction B using List.reverseRecOn with
  | nil => simp [intOfBytes]
  | append_singleton B b ih =>
    rw [← List.append_assoc]
    unfold intOfBytes at *
    simp only [List.foldl_append, List.foldl_cons, List.foldl_nil, List.length_append, List.length_singleton] at *
    rw [ih]; ring

theorem intOfBytes_cons (b : Byte) (B : List Byte) :
    intOfBytes (b :: B) = b.toNat * 256 ^ B.length + intOfBytes B := by
  have := intOfBytes_append [b] B
  simpa [intOfBytes] using this

theorem intOfBytes_lt (B : List Byte) : intOfBytes B < 256 ^ B.length := by
  induction B with
  | nil => simp [intOfBytes]
  | cons b B ih =>
    rw [intOfBytes_cons, List.length_cons, pow_succ]
    have := b.isLt
    nlinarith [this, ih]

theorem intOfBytes_bytesOfNat (k v : Nat) : intOfBytes (bytesOfNat k v) = v % 256 ^ k := by
  induction k with
  | zero => simp [bytesOfNat, intOfBytes, Nat.mod_one]
  | succ k ih =>
    rw [bytesOfNat, intOfBytes_cons, bytesOfNat_length, ih, pow_succ, Nat.mod_mul]
    simp; ring

theorem bytesOfNat_intOfBytes (B : List Byte) : bytesOfNat B.length (intOfBytes B) = B := by
  suffices h : ∀ (B : List Byte) (u : Nat), bytesOfNat B.length (u * 256 ^ B.length + intOfBytes B) = B by
    simpa using h B 0
  intro B
  induction B with
  | nil => intro u; rfl
  | cons b B ih =>
    intro u
    have hlt := intOfBytes_lt B
    have hpos : 0 < 256 ^ B.length := by positivity
    rw [List.length_cons, bytesOfNat, intOfBytes_cons]
    congr 1
    · rw [pow_succ]
      have : (u * (256 ^ B.length * 256) + (b.toNat * 256 ^ B.length + intOfBytes B)) / 256 ^ B.length
          = u * 256 + b.toNat := by
        rw [show u * (256 ^ B.length * 256) + (b.toNat * 256 ^ B.length + intOfBytes B)
            = intOfBytes B + 256 ^ B.length * (u * 256 + b.toNat) by ring, Nat.add_mul_div_left _ _ hpos,
          Nat.div_eq_of_lt hlt, Nat.zero_add]
      rw [this]
      apply BitVec.eq_of_toNat_eq
      have := b.isLt
      simp; omega
    · have := ih (u * 256 + b.toNat)
      rw [show u * 256 ^ (B.length + 1) + (b.toNat * 256 ^ B.length + intOfBytes B)
          = (u * 256 + b.toNat) * 256 ^ B.length + intOfBytes B by ring]
      exact this

@[simp] theorem bytes32_length (r : Reg) : (bytes32 r).length = 32 := bytesOfNat_length _ _
@[simp] theorem bytes4_length (w : Word32) : (bytes4 w).length = 4 := bytesOfNat_length _ _

theorem intOfBytes_bytes32 (r : Reg) : intOfBytes (bytes32 r) = r.toNat := by
  rw [bytes32, intOfBytes_bytesOfNat]; exact Nat.mod_eq_of_lt r.isLt

@[simp] theorem regOfBytes_bytes32 (r : Reg) : regOfBytes (bytes32 r) = r := by
  rw [regOfBytes, intOfBytes_bytes32]; simp

theorem bytes32_regOfBytes (B : List Byte) (h : B.length = 32) : bytes32 (regOfBytes B) = B := by
  have hl := intOfBytes_lt B
  have e := bytesOfNat_intOfBytes B
  rw [h] at hl e
  rw [bytes32, regOfBytes, BitVec.toNat_ofNat, Nat.mod_eq_of_lt (by simpa using hl), e]

@[simp] theorem word32OfBytes_bytes4 (w : Word32) : word32OfBytes (bytes4 w) = w := by
  have : intOfBytes (bytes4 w) = w.toNat := by
    rw [bytes4, intOfBytes_bytesOfNat]; exact Nat.mod_eq_of_lt w.isLt
  rw [word32OfBytes, this]; simp

theorem bytes4_word32OfBytes (B : List Byte) (h : B.length = 4) : bytes4 (word32OfBytes B) = B := by
  have hl := intOfBytes_lt B
  have e := bytesOfNat_intOfBytes B
  rw [h] at hl e
  rw [bytes4, word32OfBytes, BitVec.toNat_ofNat, Nat.mod_eq_of_lt (by simpa using hl), e]

/-- Byte `j` of the big-endian bytes of a number. -/
theorem bytesOfNat_getElem? (k v j : Nat) (h : j < k) :
    (bytesOfNat k v)[j]? = some (BitVec.ofNat 8 (v / 256 ^ (k - 1 - j))) := by
  induction k generalizing j with
  | zero => omega
  | succ k ih =>
    cases j with
    | zero => simp [bytesOfNat]
    | succ j =>
      rw [bytesOfNat, List.getElem?_cons_succ, ih j (by omega)]
      congr 4; omega

@[simp] theorem slice_length (B : List Byte) (i j : Nat) : (slice B i j).length = min (j - i) (B.length - i) := by
  simp [slice]

theorem slice_getElem? (B : List Byte) (i j a : Nat) :
    (slice B i j)[a]? = if a < j - i then B[i + a]? else none := by
  rw [slice, List.getElem?_take]
  split <;> simp [List.getElem?_drop]

end Sys2Proof.Machine
end

