-- ==== Sys2Proof/Laws/Field.lean ====
section
/-! SUPPORT. The field's constants, reduction, and the power algorithm's value. -/

namespace Sys2Proof.Machine

set_option Elab.async false

/-- The hexadecimal form of p is the formula's value (R120). -/
theorem p_formula : p = 2 ^ 256 - 2 ^ 32 - 977 := by decide +kernel

theorem p_pos : 0 < p := by decide

theorem p_lt : p < 2 ^ 256 := by decide +kernel

theorem n_pos : 0 < n := by decide +kernel

theorem n_lt_p : n < p := by decide +kernel

theorem n_lt : n < 2 ^ 256 := by decide +kernel

theorem two_n_gt : 2 ^ 256 < 2 * n := by decide +kernel

/-! ### Every field operation is reduced (R121) -/

theorem feAdd_lt (a b : Nat) : feAdd a b < p := Nat.mod_lt _ p_pos
theorem feSub_lt (a b : Nat) : feSub a b < p := Nat.mod_lt _ p_pos
theorem feMul_lt (a b : Nat) : feMul a b < p := Nat.mod_lt _ p_pos
theorem feSqr_lt (a : Nat) : feSqr a < p := Nat.mod_lt _ p_pos
theorem feNeg_lt (a : Nat) : feNeg a < p := Nat.mod_lt _ p_pos

/-- A register written with a reduced number holds that number. -/
theorem toNat_ofNat_of_lt {v : Nat} (h : v < p) : (BitVec.ofNat 256 v).toNat = v := by
  rw [BitVec.toNat_ofNat]; exact Nat.mod_eq_of_lt (h.trans p_lt)

/-- The difference of field elements is the integer one modulo p (R8, R121). -/
theorem feSub_int {a b : Nat} (hb : b ≤ p) : ((feSub a b : Nat) : Int) = ((a : Int) - b) % p := by
  have : ((a + (p - b) : Nat) : Int) = (a : Int) - b + p := by omega
  rw [feSub, Int.natCast_mod, this, Int.add_emod_right]

/-! ### Powers -/

theorem shiftRight_mod_digit (e k : Nat) :
    e % 16 ^ (k + 1) = (e >>> (4 * k) % 16) * 16 ^ k + e % 16 ^ k := by
  rw [Nat.shiftRight_eq_div_pow, pow_mul, show (2 : Nat) ^ 4 = 16 from rfl, pow_succ, Nat.mod_mul]
  ring

/-- The loop of `fePow`: the low digits of the exponent are appended. -/
theorem fePowDigits_eq (a e k acc : Nat) :
    fePowDigits a e k acc % p = acc ^ 16 ^ k * a ^ (e % 16 ^ k) % p := by
  induction k generalizing acc with
  | zero => simp [fePowDigits, Nat.mod_one]
  | succ k ih =>
    rw [fePowDigits, ih, Nat.mul_mod, ← Nat.pow_mod, ← Nat.mul_mod, shiftRight_mod_digit, pow_add, mul_pow]
    congr 1
    rw [← pow_mul, ← pow_mul, pow_succ, mul_comm 16 (16 ^ k)]
    ring

theorem fePow_mod (a e : Nat) : fePow a e % p = fePow a e := by
  rw [fePow, fePowDigits]
  suffices h : ∀ k acc, fePowDigits a e k (acc % p) % p = fePowDigits a e k (acc % p) from h _ _
  intro k
  induction k with
  | zero => intro acc; simp [fePowDigits]
  | succ k ih => intro acc; rw [fePowDigits]; exact ih _

/-- `fePow` is the power modulo p, for every exponent below 2^256 (R127, R160). -/
theorem fePow_eq (a e : Nat) (he : e < 2 ^ 256) : fePow a e = a ^ e % p := by
  rw [← fePow_mod, fePow, fePowDigits_eq]
  simp only [one_pow, one_mul]
  rw [show (16 : Nat) ^ 64 = 2 ^ 256 by norm_num, Nat.mod_eq_of_lt he]

theorem fePow_lt (a e : Nat) : fePow a e < p := by
  rw [← fePow_mod]; exact Nat.mod_lt _ p_pos

/-- `fe_inv(a)` is a^(p−2) mod p (R121, R127). -/
theorem feInv_eq (a : Nat) : feInv a = a ^ (p - 2) % p :=
  fePow_eq a _ (by have := p_lt; omega)

theorem feInv_lt (a : Nat) : feInv a < p := fePow_lt _ _

end Sys2Proof.Machine
end

