-- ==== Sys2Proof/Laws/Curve.lean ====
section
/-! SUPPORT. The model's group law is the group law of the library's elliptic curve over ZMod p: addition, doubling, negation, multiples, and lift_x. -/

namespace Sys2Proof.Machine

set_option Elab.async false

/-! ### The field as ZMod p -/

section

variable [Fact (Nat.Prime p)]

/-- The curve y² = x³ + 7 over the field of p elements, as the library has Weierstrass curves (R150). -/
def secp : WeierstrassCurve.Affine (ZMod p) :=
  { a₁ := 0, a₂ := 0, a₃ := 0, a₄ := 0, a₆ := 7 }

end

theorem cast_mod_p (a : Nat) : ((a % p : Nat) : ZMod p) = (a : ZMod p) := ZMod.natCast_mod a p

theorem cast_feAdd (a b : Nat) : ((feAdd a b : Nat) : ZMod p) = a + b := by
  rw [feAdd, cast_mod_p]; push_cast; rfl

theorem cast_feMul (a b : Nat) : ((feMul a b : Nat) : ZMod p) = a * b := by
  rw [feMul, cast_mod_p]; push_cast; rfl

theorem cast_feSqr (a : Nat) : ((feSqr a : Nat) : ZMod p) = a * a := by
  rw [feSqr, cast_mod_p]; push_cast; rfl

theorem cast_feSub (a : Nat) {b : Nat} (hb : b ≤ p) : ((feSub a b : Nat) : ZMod p) = a - b := by
  rw [feSub, cast_mod_p]; push_cast [Nat.cast_sub hb]; simp [sub_eq_add_neg]

theorem cast_feNeg {a : Nat} (ha : a ≤ p) : ((feNeg a : Nat) : ZMod p) = -a := by
  rw [feNeg, cast_mod_p]; push_cast [Nat.cast_sub ha]; simp

theorem cast_feInv [Fact (Nat.Prime p)] (a : Nat) : ((feInv a : Nat) : ZMod p) = (a : ZMod p)⁻¹ := by
  rw [feInv_eq, cast_mod_p]; push_cast
  have h2 : p - 2 + 1 = p - 1 := by decide +kernel
  by_cases h : (a : ZMod p) = 0
  · rw [h, inv_zero, zero_pow (by decide +kernel)]
  · apply eq_inv_of_mul_eq_one_left
    rw [← pow_succ, h2, ZMod.pow_card_sub_one_eq_one h]

/-- Reduced numbers are equal when their residues are. -/
theorem cast_inj {a b : Nat} (ha : a < p) (hb : b < p) (h : (a : ZMod p) = (b : ZMod p)) : a = b := by
  rw [ZMod.natCast_eq_natCast_iff, Nat.ModEq, Nat.mod_eq_of_lt ha, Nat.mod_eq_of_lt hb] at h
  exact h

theorem onCurve_iff (x y : Nat) : onCurve x y = true ↔ (y : ZMod p) * y = x * x * x + 7 := by
  rw [onCurve, decide_eq_true_iff, ← Nat.ModEq, ← ZMod.natCast_eq_natCast_iff]
  push_cast; rfl

theorem valid_affine (x y : Nat) : (Point.affine x y).valid = true ↔ x < p ∧ y < p ∧ onCurve x y = true := by
  simp [Point.valid, and_assoc]

/-! ### The points as the library's group -/

section

variable [Fact (Nat.Prime p)]

theorem cast_ne_zero_of_lt {k : Nat} (h0 : 0 < k) (h : k < p) : (k : ZMod p) ≠ 0 := by
  intro hk
  exact absurd (cast_inj h p_pos (by simpa using hk)) (by omega)

theorem two_ne_zero_mod_p : (2 : ZMod p) ≠ 0 := by
  have h : ((2 : Nat) : ZMod p) ≠ 0 := cast_ne_zero_of_lt (by norm_num) (by decide +kernel)
  rwa [Nat.cast_ofNat] at h

theorem secp_disc_ne_zero : secp.Δ ≠ 0 := by
  have h : secp.Δ = -((21168 : Nat) : ZMod p) := by
    simp only [WeierstrassCurve.Δ, WeierstrassCurve.b₂, WeierstrassCurve.b₄, WeierstrassCurve.b₆,
      WeierstrassCurve.b₈, secp]
    push_cast; ring
  rw [h, neg_ne_zero]
  exact cast_ne_zero_of_lt (by norm_num) (by decide +kernel)

theorem secp_equation_iff (x y : ZMod p) : secp.Equation x y ↔ y * y = x * x * x + 7 := by
  rw [WeierstrassCurve.Affine.equation_iff]
  simp only [secp]
  constructor <;> intro h <;> linear_combination h

theorem secp_nonsingular_iff (x y : ZMod p) : secp.Nonsingular x y ↔ y * y = x * x * x + 7 := by
  rw [← WeierstrassCurve.Affine.equation_iff_nonsingular_of_Δ_ne_zero secp_disc_ne_zero, secp_equation_iff]

theorem nonsingular_of_valid {x y : Nat} (h : (Point.affine x y).valid = true) : secp.Nonsingular (x : ZMod p) y :=
  (secp_nonsingular_iff _ _).mpr ((onCurve_iff x y).mp ((valid_affine x y).mp h).2.2)

open Classical in
/-- The library's point for a point of the model. -/
noncomputable def toSecp : Point → secp.Point
  | .infinity => 0
  | .affine x y => if h : secp.Nonsingular (x : ZMod p) y then .some x y h else 0

@[simp] theorem toSecp_infinity : toSecp .infinity = 0 := rfl

theorem toSecp_affine {x y : Nat} (h : secp.Nonsingular (x : ZMod p) y) :
    toSecp (.affine x y) = .some (x : ZMod p) (y : ZMod p) h := by
  simp only [toSecp]; rw [dif_pos h]

/-- The library's point determines a valid point of the model. -/
theorem toSecp_injective {P Q : Point} (hP : P.valid = true) (hQ : Q.valid = true) (h : toSecp P = toSecp Q) :
    P = Q := by
  cases P with
  | infinity =>
    cases Q with
    | infinity => rfl
    | affine x y => rw [toSecp_affine (nonsingular_of_valid hQ), toSecp_infinity] at h; cases h
  | affine x y =>
    cases Q with
    | infinity => rw [toSecp_affine (nonsingular_of_valid hP), toSecp_infinity] at h; cases h
    | affine x' y' =>
      rw [toSecp_affine (nonsingular_of_valid hP), toSecp_affine (nonsingular_of_valid hQ)] at h
      obtain ⟨hx, hy, -⟩ := (valid_affine x y).mp hP
      obtain ⟨hx', hy', -⟩ := (valid_affine x' y').mp hQ
      injection h with h1 h2
      rw [cast_inj hx hx' h1, cast_inj hy hy' h2]

/-- A pair of reduced coordinates that is a point of the library is a valid point. -/
theorem valid_of_nonsingular {x y : Nat} (hx : x < p) (hy : y < p) (h : secp.Nonsingular (x : ZMod p) y) :
    (Point.affine x y).valid = true :=
  (valid_affine x y).mpr ⟨hx, hy, (onCurve_iff x y).mpr ((secp_nonsingular_iff _ _).mp h)⟩

theorem secp_negY (x y : ZMod p) : secp.negY x y = -y := by
  simp [WeierstrassCurve.Affine.negY, secp]

theorem ptNeg_spec {P : Point} (hP : P.valid = true) : (ptNeg P).valid = true ∧ toSecp (ptNeg P) = -toSecp P := by
  cases P with
  | infinity => exact ⟨rfl, by simp [ptNeg]⟩
  | affine x y =>
    obtain ⟨hx, hy, -⟩ := (valid_affine x y).mp hP
    have hn := nonsingular_of_valid hP
    have hn' : secp.Nonsingular (x : ZMod p) ((feNeg y : Nat) : ZMod p) := by
      rw [cast_feNeg hy.le, ← secp_negY x]; exact (WeierstrassCurve.Affine.nonsingular_neg _ _).mpr hn
    refine ⟨valid_of_nonsingular hx (feNeg_lt y) hn', ?_⟩
    rw [ptNeg, toSecp_affine hn', toSecp_affine hn, WeierstrassCurve.Affine.Point.neg_some]
    congr 1
    rw [cast_feNeg hy.le, secp_negY]

/-- The formulas of R155 and R156, with a slope that is the library's, give the library's sum. -/
theorem chord_spec {x1 y1 x2 y2 lam : Nat} (hP : (Point.affine x1 y1).valid = true)
    (hQ : (Point.affine x2 y2).valid = true) (hne : ¬((x1 : ZMod p) = x2 ∧ (y1 : ZMod p) = secp.negY x2 y2))
    (hl : (lam : ZMod p) = secp.slope (x1 : ZMod p) x2 y1 y2) :
    let x3 := feSub (feSub (feSqr lam) x1) x2
    let y3 := feSub (feMul lam (feSub x1 x3)) y1
    (Point.affine x3 y3).valid = true ∧ toSecp (.affine x3 y3) = toSecp (.affine x1 y1) + toSecp (.affine x2 y2) := by
  intro x3 y3
  obtain ⟨hx1, hy1, -⟩ := (valid_affine x1 y1).mp hP
  obtain ⟨hx2, hy2, -⟩ := (valid_affine x2 y2).mp hQ
  have n1 := nonsingular_of_valid hP
  have n2 := nonsingular_of_valid hQ
  have ex : ((x3 : Nat) : ZMod p) = secp.addX (x1 : ZMod p) x2 (secp.slope (x1 : ZMod p) x2 y1 y2) := by
    rw [← hl, WeierstrassCurve.Affine.addX, cast_feSub _ hx2.le, cast_feSub _ hx1.le, cast_feSqr]
    simp only [secp]; ring
  have ey : ((y3 : Nat) : ZMod p) = secp.addY (x1 : ZMod p) x2 y1 (secp.slope (x1 : ZMod p) x2 y1 y2) := by
    rw [WeierstrassCurve.Affine.addY, WeierstrassCurve.Affine.negAddY, ← ex, ← hl, secp_negY, cast_feSub _ hy1.le,
      cast_feMul, cast_feSub _ (feSub_lt _ _).le]
    ring
  have n3 : secp.Nonsingular (x3 : ZMod p) y3 := by
    rw [ex, ey]; exact WeierstrassCurve.Affine.nonsingular_add n1 n2 hne
  refine ⟨valid_of_nonsingular (feSub_lt _ _) (feSub_lt _ _) n3, ?_⟩
  rw [toSecp_affine n1, toSecp_affine n2, toSecp_affine n3, WeierstrassCurve.Affine.Point.add_some hne]
  congr 1

theorem ptDbl_spec {P : Point} (hP : P.valid = true) :
    (ptDbl P).valid = true ∧ toSecp (ptDbl P) = toSecp P + toSecp P := by
  cases P with
  | infinity => exact ⟨rfl, by simp [ptDbl]⟩
  | affine x y =>
    obtain ⟨hx, hy, -⟩ := (valid_affine x y).mp hP
    have hn := nonsingular_of_valid hP
    by_cases h0 : y = 0
    · subst h0
      refine ⟨by simp [ptDbl, Point.valid], ?_⟩
      rw [show ptDbl (.affine x 0) = .infinity by simp [ptDbl], toSecp_infinity, toSecp_affine hn,
        WeierstrassCurve.Affine.Point.add_self_of_Y_eq (by rw [secp_negY]; simp)]
    · have hy0 : (y : ZMod p) ≠ 0 := cast_ne_zero_of_lt (by omega) hy
      have hyn : (y : ZMod p) ≠ secp.negY x y := by
        rw [secp_negY]
        intro h
        have : (2 : ZMod p) * y = 0 := by linear_combination h
        exact (mul_ne_zero two_ne_zero_mod_p hy0) this
      have hl : ((feMul (feMul 3 (feSqr x)) (feInv (feMul 2 y)) : Nat) : ZMod p)
          = secp.slope (x : ZMod p) x y y := by
        rw [WeierstrassCurve.Affine.slope_of_Y_ne rfl hyn, secp_negY, cast_feMul, cast_feMul, cast_feInv, cast_feMul,
          cast_feSqr]
        simp only [secp]
        push_cast
        rw [show (y : ZMod p) - -y = 2 * y by ring, div_eq_mul_inv]
        ring
      have := chord_spec hP hP (fun h => hyn h.2) hl
      simpa only [ptDbl, if_neg h0] using this

/-- Point addition is the library's group addition, and stays on the curve (R21, R156). -/
theorem ptAdd_spec {P Q : Point} (hP : P.valid = true) (hQ : Q.valid = true) :
    (ptAdd P Q).valid = true ∧ toSecp (ptAdd P Q) = toSecp P + toSecp Q := by
  cases P with
  | infinity => exact ⟨hQ, by simp [ptAdd]⟩
  | affine x1 y1 =>
    cases Q with
    | infinity => exact ⟨hP, by simp [ptAdd]⟩
    | affine x2 y2 =>
      obtain ⟨hx1, hy1, -⟩ := (valid_affine x1 y1).mp hP
      obtain ⟨hx2, hy2, -⟩ := (valid_affine x2 y2).mp hQ
      by_cases he : x1 = x2 ∧ y1 = y2
      · obtain ⟨rfl, rfl⟩ := he
        simpa [ptAdd] using ptDbl_spec hP
      · by_cases hx : x1 = x2
        · subst hx
          have hy : y1 ≠ y2 := fun h => he ⟨rfl, h⟩
          have hneg : (y1 : ZMod p) = secp.negY (x1 : ZMod p) y2 := by
            rcases WeierstrassCurve.Affine.Y_eq_of_X_eq (nonsingular_of_valid hP).1 (nonsingular_of_valid hQ).1 rfl with h | h
            · exact absurd (cast_inj hy1 hy2 h) hy
            · exact h
          rw [show ptAdd (.affine x1 y1) (.affine x1 y2) = .infinity by simp [ptAdd, hy]]
          refine ⟨rfl, ?_⟩
          rw [toSecp_infinity, toSecp_affine (nonsingular_of_valid hP), toSecp_affine (nonsingular_of_valid hQ),
            WeierstrassCurve.Affine.Point.add_of_Y_eq rfl hneg]
        · have hxc : (x1 : ZMod p) ≠ x2 := fun h => hx (cast_inj hx1 hx2 h)
          have hl : ((feMul (feSub y2 y1) (feInv (feSub x2 x1)) : Nat) : ZMod p)
              = secp.slope (x1 : ZMod p) x2 y1 y2 := by
            rw [WeierstrassCurve.Affine.slope_of_X_ne hxc, cast_feMul, cast_feInv, cast_feSub _ hy1.le,
              cast_feSub _ hx1.le, div_eq_mul_inv, ← neg_sub (x2 : ZMod p), ← neg_sub (y2 : ZMod p), inv_neg]
            ring
          have := chord_spec hP hQ (fun h => hxc h.1) hl
          simpa only [ptAdd, if_neg he, if_neg hx] using this

theorem ptMulBits_spec {P : Point} (hP : P.valid = true) (k i : Nat) {R : Point} (hR : R.valid = true) :
    (ptMulBits k P i R).valid = true ∧
      toSecp (ptMulBits k P i R) = (2 ^ i) • toSecp R + (k % 2 ^ i) • toSecp P := by
  induction i generalizing R with
  | zero => simp [ptMulBits, hR, Nat.mod_one]
  | succ i ih =>
    have hd := ptDbl_spec hR
    have hstep : k % 2 ^ (i + 1) = k % 2 ^ i + 2 ^ i * (k.testBit i).toNat := by
      rw [Nat.mod_pow_succ, Nat.testBit_eq_decide_div_mod_eq]
      rcases Nat.mod_two_eq_zero_or_one (k / 2 ^ i) with h | h <;> simp [h]
    cases hb : k.testBit i with
    | false =>
      obtain ⟨v, e⟩ := ih hd.1
      refine ⟨by simpa [ptMulBits, hb] using v, ?_⟩
      rw [show ptMulBits k P (i + 1) R = ptMulBits k P i (ptDbl R) by simp [ptMulBits, hb], e, hd.2, hstep, hb]
      simp [pow_succ, mul_two, add_nsmul, nsmul_add]
    | true =>
      have ha := ptAdd_spec hd.1 hP
      obtain ⟨v, e⟩ := ih ha.1
      refine ⟨by simpa [ptMulBits, hb] using v, ?_⟩
      rw [show ptMulBits k P (i + 1) R = ptMulBits k P i (ptAdd (ptDbl R) P) by simp [ptMulBits, hb], e, ha.2, hd.2,
        hstep, hb]
      simp only [Bool.toNat_true, mul_one, pow_succ, mul_two, add_nsmul, nsmul_add]
      abel

/-- Scalar multiplication is the library's multiple of the point (R157). -/
theorem ptMul_spec {P : Point} (hP : P.valid = true) {k : Nat} (hk : k < 2 ^ 256) :
    (ptMul k P).valid = true ∧ toSecp (ptMul k P) = k • toSecp P := by
  have h := ptMulBits_spec hP k 256 (R := .infinity) rfl
  rw [toSecp_infinity, nsmul_zero, zero_add, Nat.mod_eq_of_lt hk] at h
  exact h

theorem ptMulIter_spec {P : Point} (hP : P.valid = true) (k : Nat) :
    (ptMulIter k P).valid = true ∧ toSecp (ptMulIter k P) = k • toSecp P := by
  induction k with
  | zero => exact ⟨rfl, by simp [ptMulIter]⟩
  | succ k ih =>
    have := ptAdd_spec ih.1 hP
    exact ⟨this.1, by rw [ptMulIter, this.2, ih.2, succ_nsmul]⟩

/-! ### Square roots and lift_x -/

/-- Of a square, `feSqrt` finds a root (R160): p mod 4 = 3. -/
theorem fePow_root {c y : Nat} (h : (y : ZMod p) * y = c) :
    ((fePow c ((p + 1) / 4) : Nat) : ZMod p) = y ∨ ((fePow c ((p + 1) / 4) : Nat) : ZMod p) = -y := by
  have he : (p + 1) / 4 < 2 ^ 256 := by decide +kernel
  have h2 : 2 * ((p + 1) / 4 * 2) = p - 1 + 2 := by decide +kernel
  rw [fePow_eq _ _ he, cast_mod_p, Nat.cast_pow, ← h, ← sq, ← pow_mul]
  rw [← sq_eq_sq_iff_eq_or_eq_neg, ← pow_mul, mul_assoc, h2, pow_add]
  by_cases h0 : (y : ZMod p) = 0
  · rw [h0]; simp
  · rw [ZMod.pow_card_sub_one_eq_one h0, one_mul]

/-- The number x³ + 7 of `lift_x`, modulo p. -/
theorem cast_liftX_cubic (x : Nat) :
    ((feAdd (feMul (feSqr x) x) 7 : Nat) : ZMod p) = x * x * x + 7 := by
  rw [cast_feAdd, cast_feMul, cast_feSqr]; push_cast; rfl

/-- A point with even y above x is what `lift_x` returns (R159): there is only one. -/
theorem liftX_of_even {x y : Nat} (hv : (Point.affine x y).valid = true) (hev : y % 2 = 0) :
    liftX x = .ok (.affine x y) := by
  obtain ⟨hx, hy, hc⟩ := (valid_affine x y).mp hv
  have hyy : (y : ZMod p) * y = ((feAdd (feMul (feSqr x) x) 7 : Nat) : ZMod p) := by
    rw [cast_liftX_cubic]; exact (onCurve_iff x y).mp hc
  have hroot := fePow_root hyy
  unfold liftX feSqrt
  simp only
  generalize hr : fePow (feAdd (feMul (feSqr x) x) 7) ((p + 1) / 4) = r at *
  have hrlt : r < p := by rw [← hr]; exact fePow_lt _ _
  have hsq : feSqr r = feAdd (feMul (feSqr x) x) 7 := by
    apply cast_inj (feSqr_lt _) (feAdd_lt _ _)
    rw [cast_feSqr, ← hyy]
    rcases hroot with h | h <;> rw [h]
    ring
  rw [if_pos hsq]
  have hodd : p % 2 = 1 := by decide +kernel
  have hval : (if r % 2 = 1 then p - r else r) = y := by
    rcases hroot with h | h
    · have := cast_inj hrlt hy h
      rw [this, if_neg (by omega)]
    · have hry : r = feNeg y := cast_inj hrlt (feNeg_lt y) (by rw [h, cast_feNeg hy.le])
      by_cases h0 : y = 0
      · subst h0
        rw [hry, show feNeg 0 = 0 by simp [feNeg]]; simp
      · rw [feNeg, Nat.mod_eq_of_lt (by omega)] at hry
        rw [hry, if_pos (by omega)]; omega
  simp only [hval]

/-- What `lift_x` returns is a point of the curve above x with even y (R159). -/
theorem liftX_ok {x : Nat} {P : Point} (hx : x < p) (h : liftX x = .ok P) :
    ∃ y, P = .affine x y ∧ (Point.affine x y).valid = true ∧ y % 2 = 0 := by
  unfold liftX feSqrt at h
  simp only at h
  generalize hr : fePow (feAdd (feMul (feSqr x) x) 7) ((p + 1) / 4) = r at *
  have hrlt : r < p := by rw [← hr]; exact fePow_lt _ _
  split_ifs at h with hsq
  · simp only [Except.ok.injEq] at h
    have hodd : p % 2 = 1 := by decide +kernel
    have hcast : (r : ZMod p) * r = x * x * x + 7 := by
      rw [← cast_feSqr, hsq, cast_liftX_cubic]
    refine ⟨_, h.symm, ?_, by split_ifs <;> omega⟩
    rw [valid_affine, onCurve_iff]
    refine ⟨hx, by split_ifs <;> omega, ?_⟩
    split_ifs
    · rw [Nat.cast_sub hrlt.le]; simpa using hcast
    · exact hcast

end

/-- `lift_x` either returns a point or fails with InvalidXCoordinateError. -/
theorem liftX_cases (x : Nat) : (∃ P, liftX x = .ok P) ∨ liftX x = .error .invalidXCoordinateError := by
  unfold liftX feSqrt
  simp only
  split_ifs
  · exact .inl ⟨_, rfl⟩
  · exact .inr rfl

end Sys2Proof.Machine
end

