-- ==== Sys2Proof/Laws/Encoding.lean ====
section
/-! SUPPORT. Single bits of the two 32-bit words of the block, the command word and the STATUS word. -/

namespace Sys2Proof

/-- Which field of rule R88 holds bit `j` of a command word. -/
theorem word_bit (f : CmdFields) (j : Nat) :
    f.word.getLsbD j =
      if j < 8 then f.opc.getLsbD j else if j = 8 then f.ia else if j = 9 then f.ib else f.zero.getLsbD (j - 10) := by
  rw [CmdFields.word]
  simp only [BitVec.getLsbD_or, BitVec.getLsbD_shiftLeft, BitVec.getLsbD_setWidth, BitVec.getLsbD_ofBool]
  split_ifs with h1 h2 h3
  · simp [show j < 32 by omega, show j < 10 by omega, show j < 9 by omega, h1]
  · subst h2; simp
  · subst h3; simp
  · by_cases hj : j < 32
    · simp [hj, show ¬ j < 10 by omega, show ¬ j < 9 by omega, show ¬ j < 8 by omega, show ¬ j - 9 = 0 by omega,
        show ¬ j - 8 = 0 by omega, show j - 10 < 32 by omega, BitVec.getLsbD_of_ge f.opc j (by omega)]
    · simp [hj, BitVec.getLsbD_of_ge f.zero (j - 10) (by omega), BitVec.getLsbD_of_ge f.opc j (by omega)]

namespace Machine

/-- Which field of rule R30 holds bit `j` of the STATUS word. -/
theorem status_word_bit (st : Status) (j : Nat) :
    st.word.getLsbD j =
      if j = 0 then st.done else if j = 1 then st.t else if j = 2 then st.inf
      else if 4 ≤ j ∧ j < 8 then st.err.getLsbD (j - 4) else false := by
  obtain ⟨d, t, i, e⟩ := st
  by_cases hj : j < 8
  · have he : e = BitVec.ofFin e.toFin := rfl
    generalize e.toFin = k at he
    subst he
    revert k
    interval_cases j <;> revert d t i <;> decide
  · rw [if_neg (by omega), if_neg (by omega), if_neg (by omega), if_neg (by omega)]
    have h : (Status.word ⟨d, t, i, e⟩).toNat < 2 ^ 8 := by
      have he : e = BitVec.ofFin e.toFin := rfl
      generalize e.toFin = k at he
      subst he
      revert d t i k; decide
    exact Nat.testBit_lt_two_pow (lt_of_lt_of_le h (Nat.pow_le_pow_right (by norm_num) (by omega)))

end Machine

end Sys2Proof
end

