-- ==== Sys2Proof/Laws/State.lean ====
section
/-! SUPPORT. One lemma per field for every operation that updates State, so that no later proof unfolds a record update. -/

namespace Sys2Proof.Machine

@[simp] theorem complete_opnd0 (r : CmdResult) (s : State) : (complete r s).opnd0 = s.opnd0 := rfl
@[simp] theorem complete_opnd1 (r : CmdResult) (s : State) : (complete r s).opnd1 = s.opnd1 := rfl
@[simp] theorem complete_opnd2 (r : CmdResult) (s : State) : (complete r s).opnd2 = s.opnd2 := rfl
@[simp] theorem complete_opnd3 (r : CmdResult) (s : State) : (complete r s).opnd3 = s.opnd3 := rfl
@[simp] theorem complete_res0 (r : CmdResult) (s : State) : (complete r s).res0 = BitVec.ofNat 256 r.r0 := rfl
@[simp] theorem complete_res1 (r : CmdResult) (s : State) : (complete r s).res1 = BitVec.ofNat 256 r.r1 := rfl
@[simp] theorem complete_status (r : CmdResult) (s : State) : (complete r s).status = statusOk r.t r.inf := rfl
@[simp] theorem complete_pending (r : CmdResult) (s : State) : (complete r s).pending = s.pending := rfl
@[simp] theorem complete_answer (r : CmdResult) (s : State) : (complete r s).answer = s.answer := rfl

@[simp] theorem raiseError_opnd0 (e : CmdError) (s : State) : (raiseError e s).opnd0 = s.opnd0 := rfl
@[simp] theorem raiseError_opnd1 (e : CmdError) (s : State) : (raiseError e s).opnd1 = s.opnd1 := rfl
@[simp] theorem raiseError_opnd2 (e : CmdError) (s : State) : (raiseError e s).opnd2 = s.opnd2 := rfl
@[simp] theorem raiseError_opnd3 (e : CmdError) (s : State) : (raiseError e s).opnd3 = s.opnd3 := rfl
@[simp] theorem raiseError_res0 (e : CmdError) (s : State) : (raiseError e s).res0 = 0#256 := rfl
@[simp] theorem raiseError_res1 (e : CmdError) (s : State) : (raiseError e s).res1 = 0#256 := rfl
@[simp] theorem raiseError_status (e : CmdError) (s : State) : (raiseError e s).status = statusError e := rfl
@[simp] theorem raiseError_pending (e : CmdError) (s : State) : (raiseError e s).pending = s.pending := rfl
@[simp] theorem raiseError_answer (e : CmdError) (s : State) : (raiseError e s).answer = s.answer := rfl

@[simp] theorem statusOk_done (t inf : Bool) : (statusOk t inf).done = true := rfl
@[simp] theorem statusOk_t (t inf : Bool) : (statusOk t inf).t = t := rfl
@[simp] theorem statusOk_inf (t inf : Bool) : (statusOk t inf).inf = inf := rfl
@[simp] theorem statusOk_err (t inf : Bool) : (statusOk t inf).err = 0#4 := rfl
@[simp] theorem statusError_done (e : CmdError) : (statusError e).done = true := rfl
@[simp] theorem statusError_t (e : CmdError) : (statusError e).t = false := rfl
@[simp] theorem statusError_inf (e : CmdError) : (statusError e).inf = false := rfl
@[simp] theorem statusError_err (e : CmdError) : (statusError e).err = e.code := rfl

@[simp] theorem setOperandBytes_opnd0 (s : State) (B : List Byte) :
    (s.setOperandBytes B).opnd0 = regOfBytes (slice B 0x00 0x20) := rfl
@[simp] theorem setOperandBytes_opnd1 (s : State) (B : List Byte) :
    (s.setOperandBytes B).opnd1 = regOfBytes (slice B 0x20 0x40) := rfl
@[simp] theorem setOperandBytes_opnd2 (s : State) (B : List Byte) :
    (s.setOperandBytes B).opnd2 = regOfBytes (slice B 0x40 0x60) := rfl
@[simp] theorem setOperandBytes_opnd3 (s : State) (B : List Byte) :
    (s.setOperandBytes B).opnd3 = regOfBytes (slice B 0x60 0x80) := rfl
@[simp] theorem setOperandBytes_res0 (s : State) (B : List Byte) : (s.setOperandBytes B).res0 = s.res0 := rfl
@[simp] theorem setOperandBytes_res1 (s : State) (B : List Byte) : (s.setOperandBytes B).res1 = s.res1 := rfl
@[simp] theorem setOperandBytes_status (s : State) (B : List Byte) : (s.setOperandBytes B).status = s.status := rfl
@[simp] theorem setOperandBytes_pending (s : State) (B : List Byte) : (s.setOperandBytes B).pending = s.pending := rfl
@[simp] theorem setOperandBytes_answer (s : State) (B : List Byte) : (s.setOperandBytes B).answer = s.answer := rfl

@[simp] theorem writeOperandBytes_res0 (s : State) (off : Nat) (B : List Byte) :
    (s.writeOperandBytes off B).res0 = s.res0 := rfl
@[simp] theorem writeOperandBytes_res1 (s : State) (off : Nat) (B : List Byte) :
    (s.writeOperandBytes off B).res1 = s.res1 := rfl
@[simp] theorem writeOperandBytes_status (s : State) (off : Nat) (B : List Byte) :
    (s.writeOperandBytes off B).status = s.status := rfl
@[simp] theorem writeOperandBytes_pending (s : State) (off : Nat) (B : List Byte) :
    (s.writeOperandBytes off B).pending = s.pending := rfl
@[simp] theorem writeOperandBytes_answer (s : State) (off : Nat) (B : List Byte) :
    (s.writeOperandBytes off B).answer = s.answer := rfl

@[simp] theorem applyReset_opnd0 (s : State) : (applyReset s).opnd0 = 0#256 := rfl
@[simp] theorem applyReset_opnd1 (s : State) : (applyReset s).opnd1 = 0#256 := rfl
@[simp] theorem applyReset_opnd2 (s : State) : (applyReset s).opnd2 = 0#256 := rfl
@[simp] theorem applyReset_opnd3 (s : State) : (applyReset s).opnd3 = 0#256 := rfl
@[simp] theorem applyReset_res0 (s : State) : (applyReset s).res0 = 0#256 := rfl
@[simp] theorem applyReset_res1 (s : State) : (applyReset s).res1 = 0#256 := rfl
@[simp] theorem applyReset_status (s : State) : (applyReset s).status = ⟨false, false, false, 0#4⟩ := rfl
@[simp] theorem applyReset_pending (s : State) : (applyReset s).pending = s.pending := rfl
@[simp] theorem applyReset_answer (s : State) : (applyReset s).answer = [] := rfl

@[simp] theorem placeCommand_pending (nbits w : Nat) (s : State) :
    (placeCommand nbits w s).pending = .memWrite 0xC0 (tableWordBytes nbits w) :: s.pending := rfl
@[simp] theorem withFetchWord_pending (s : State) (nbits w : Nat) :
    (s.withFetchWord nbits w).pending = .memWrite 0xC0 (tableWordBytes nbits w) :: s.pending := rfl

@[simp] theorem opnd_zero (s : State) : s.opnd 0 = s.opnd0 := rfl
@[simp] theorem opnd_one (s : State) : s.opnd 1 = s.opnd1 := rfl
@[simp] theorem opnd_two (s : State) : s.opnd 2 = s.opnd2 := rfl
@[simp] theorem opnd_three (s : State) : s.opnd 3 = s.opnd3 := rfl

end Sys2Proof.Machine
end

