-- ==== Sys2Proof/Laws/Ops.lean ====
section
/-! SUPPORT. For each shared operation, once, everything it can do: the register space, the operand decodes, settling a command, the host port and the step. -/

namespace Sys2Proof.Machine

/-! ### The register space -/

@[simp] theorem operandBytes_length (s : State) : s.operandBytes.length = 128 := by
  simp [State.operandBytes]

@[simp] theorem resultBytes_length (s : State) : s.resultBytes.length = 64 := by
  simp [State.resultBytes]

@[simp] theorem spaceBytes_length (s : State) : s.spaceBytes.length = 200 := by
  simp [State.spaceBytes]

/-- In the operand buffer the host reads the operand registers' bytes. -/
theorem readByte_operand (s : State) (a : Nat) (h : a < 0x80) : s.readByte a = s.operandBytes[a]? := by
  simp only [State.readByte, State.spaceBytes, List.append_assoc]
  rw [List.getElem?_append_left (by simpa using h)]

/-- In the result buffer the host reads the result registers' bytes. -/
theorem readByte_result (s : State) (a : Nat) (h1 : 0x80 ≤ a) (h2 : a < 0xC0) :
    s.readByte a = s.resultBytes[a - 0x80]? := by
  simp only [State.readByte, State.spaceBytes, List.append_assoc]
  rw [List.getElem?_append_right (by simpa using h1), List.getElem?_append_left (by simp; omega)]
  simp

/-- CMD reads zero. -/
theorem readByte_cmd (s : State) (a : Nat) (h1 : 0xC0 ≤ a) (h2 : a < 0xC4) : s.readByte a = some 0#8 := by
  simp only [State.readByte, State.spaceBytes, List.append_assoc]
  rw [List.getElem?_append_right (by simp; omega), List.getElem?_append_right (by simp; omega),
    List.getElem?_append_left (by simp; omega)]
  simp only [operandBytes_length, resultBytes_length]
  obtain rfl | rfl | rfl | rfl : a = 0xC0 ∨ a = 0xC1 ∨ a = 0xC2 ∨ a = 0xC3 := by omega
  all_goals decide

/-- At STATUS the host reads the status word's bytes. -/
theorem readByte_status (s : State) (a : Nat) (h1 : 0xC4 ≤ a) : s.readByte a = (bytes4 s.status.word)[a - 0xC4]? := by
  simp only [State.readByte, State.spaceBytes, List.append_assoc]
  rw [List.getElem?_append_right (by simp; omega), List.getElem?_append_right (by simp; omega),
    List.getElem?_append_right (by simp; omega)]
  simp [Nat.sub_sub]

/-- What a read returns, byte by byte. -/
theorem readBytes_getElem? (s : State) (off k a : Nat) :
    (s.readBytes off k)[a]? = if a < k then s.readByte (off + a) else none := by
  rw [State.readBytes, slice_getElem?]
  simp [State.readByte]

theorem readBytes_length (s : State) (off k : Nat) (h : off + k ≤ 0xC8) : (s.readBytes off k).length = k := by
  simp [State.readBytes]; omega

/-- The bytes written to all four operand registers are the bytes read back. -/
theorem operandBytes_setOperandBytes (s : State) (B : List Byte) (h : B.length = 128) :
    (s.setOperandBytes B).operandBytes = B := by
  simp only [State.operandBytes, setOperandBytes_opnd0, setOperandBytes_opnd1, setOperandBytes_opnd2,
    setOperandBytes_opnd3]
  rw [bytes32_regOfBytes _ (by simp [h]), bytes32_regOfBytes _ (by simp [h]), bytes32_regOfBytes _ (by simp [h]),
    bytes32_regOfBytes _ (by simp [h])]
  apply List.ext_getElem?
  intro a
  simp only [slice, List.getElem?_append, List.getElem?_take, List.getElem?_drop, List.length_append,
    List.length_take, List.length_drop, h]
  by_cases hb : a < 128
  · split_ifs <;> first | omega | (congr 1; omega)
  · split_ifs <;> first | omega | exact (List.getElem?_eq_none (by omega)).symm

/-- A host write to the operand buffer, byte by byte. -/
theorem operandBytes_writeOperandBytes (s : State) (off : Nat) (B : List Byte) (h : off + B.length ≤ 0x80) :
    (s.writeOperandBytes off B).operandBytes
      = s.operandBytes.take off ++ B ++ s.operandBytes.drop (off + B.length) := by
  apply operandBytes_setOperandBytes
  simp; omega

/-- The register space does not show the operand registers outside the operand buffer. -/
theorem readByte_writeOperandBytes_high (s : State) (off a : Nat) (B : List Byte) (h : 0x80 ≤ a) :
    (s.writeOperandBytes off B).readByte a = s.readByte a := by
  by_cases h1 : a < 0xC0
  · rw [readByte_result _ _ h h1, readByte_result _ _ h h1]; rfl
  by_cases h2 : a < 0xC4
  · rw [readByte_cmd _ _ (by omega) h2, readByte_cmd _ _ (by omega) h2]
  · rw [readByte_status _ _ (by omega), readByte_status _ _ (by omega)]; rfl

/-- A host write to the operand buffer: the bytes written, and every other byte as before. -/
theorem readByte_writeOperandBytes (s : State) (off a : Nat) (B : List Byte) (h : off + B.length ≤ 0x80) :
    (s.writeOperandBytes off B).readByte a
      = if off ≤ a ∧ a < off + B.length then B[a - off]? else s.readByte a := by
  by_cases ha : a < 0x80
  · rw [readByte_operand _ _ ha, readByte_operand _ _ ha, operandBytes_writeOperandBytes _ _ _ h]
    simp only [List.getElem?_append, List.getElem?_take, List.getElem?_drop, List.length_append, List.length_take,
      operandBytes_length]
    split_ifs <;> first | omega | rfl | (congr 1; omega)
  · rw [readByte_writeOperandBytes_high _ _ _ _ (by omega)]
    split_ifs <;> first | omega | rfl

/-! ### Commands -/

/-- Everything a settled command can be. -/
theorem settle_cases (o : Except CmdError CmdResult) (s : State) :
    (∃ r, o = .ok r ∧ settle o s = complete r s) ∨ (∃ e, o = .error e ∧ settle o s = raiseError e s) := by
  cases o with
  | ok r => exact .inl ⟨r, rfl, rfl⟩
  | error e => exact .inr ⟨e, rfl, rfl⟩

@[simp] theorem settle_ok (r : CmdResult) (s : State) : settle (.ok r) s = complete r s := rfl
@[simp] theorem settle_error (e : CmdError) (s : State) : settle (.error e) s = raiseError e s := rfl

@[simp] theorem ok_bind {α β : Type} (a : α) (f : α → Except CmdError β) :
    ((Except.ok a : Except CmdError α) >>= f) = f a := rfl
@[simp] theorem error_bind {α β : Type} (e : CmdError) (f : α → Except CmdError β) :
    ((Except.error e : Except CmdError α) >>= f) = .error e := rfl

theorem decFE_ok {v : Reg} (h : v.toNat < p) : decFE v = .ok v.toNat := by
  simp [decFE, Nat.not_le.mpr h]

theorem decFE_error {v : Reg} (h : p ≤ v.toNat) : decFE v = .error .outOfRangeError := by
  simp [decFE, h]

/-- Everything a field operand can be. -/
theorem decFE_cases (v : Reg) :
    (v.toNat < p ∧ decFE v = .ok v.toNat) ∨ (p ≤ v.toNat ∧ decFE v = .error .outOfRangeError) := by
  rcases Nat.lt_or_ge v.toNat p with h | h
  · exact .inl ⟨h, decFE_ok h⟩
  · exact .inr ⟨h, decFE_error h⟩

@[simp] theorem decPt_infinity (vx vy : Reg) : decPt true vx vy = .ok .infinity := rfl

/-- Everything a point operand whose flag is clear can be, in the order of its checks (R93). -/
theorem decPt_cases (vx vy : Reg) :
    (vx.toNat < p ∧ vy.toNat < p ∧ onCurve vx.toNat vy.toNat = true
        ∧ decPt false vx vy = .ok (.affine vx.toNat vy.toNat)) ∨
    ((p ≤ vx.toNat ∨ p ≤ vy.toNat) ∧ decPt false vx vy = .error .outOfRangeError) ∨
    (vx.toNat < p ∧ vy.toNat < p ∧ onCurve vx.toNat vy.toNat = false
        ∧ decPt false vx vy = .error .notOnCurveError) := by
  rcases decFE_cases vx with ⟨hx, ex⟩ | ⟨hx, ex⟩
  · rcases decFE_cases vy with ⟨hy, ey⟩ | ⟨hy, ey⟩
    · cases hc : onCurve vx.toNat vy.toNat
      · exact .inr (.inr ⟨hx, hy, rfl, by simp [decPt, ex, ey, hc]⟩)
      · exact .inl ⟨hx, hy, rfl, by simp [decPt, ex, ey, hc]⟩
    · exact .inr (.inl ⟨.inr hy, by simp [decPt, ex, ey]⟩)
  · exact .inr (.inl ⟨.inl hx, by simp [decPt, ex]⟩)

/-- A point operand that decodes is a valid point (R21). -/
theorem decPt_valid {inf : Bool} {vx vy : Reg} {P : Point} (h : decPt inf vx vy = .ok P) : P.valid = true := by
  cases inf with
  | true => cases h; rfl
  | false =>
    rcases decPt_cases vx vy with ⟨hx, hy, hc, e⟩ | ⟨-, e⟩ | ⟨-, -, -, e⟩ <;> rw [e] at h <;> cases h
    simp [Point.valid, hx, hy, hc]

/-- Every command answers a next state, and that state is the settled outcome of its pseudocode: the result registers
and STATUS are written and nothing else (R31, R92). -/
theorem exec_settles (i : Instr) (s : State) : ∃ o, exec i s = .next (settle o s) := by
  cases i <;> exact ⟨_, rfl⟩

/-! ### The host port -/

/-- Everything a step can do: nothing when no transaction waits, else the oldest transaction. -/
theorem step_cases (s : State) :
    (s.pending = [] ∧ step s = .next s) ∨
    (∃ t later, s.pending = t :: later ∧ step s = transact t { s with pending := later }) := by
  cases h : s.pending with
  | nil => exact .inl ⟨rfl, by simp [step, takeTransaction, h]⟩
  | cons t later => exact .inr ⟨t, later, rfl, by simp [step, takeTransaction, h]⟩

/-- Everything a host write that goes through can do. -/
theorem hostWrite_next {off : Nat} {B : List Byte} {s s' : State} (h : hostWrite off B s = .next s') :
    (1 ≤ B.length ∧ off + B.length ≤ 0x80 ∧ s' = s.writeOperandBytes off B) ∨
    (1 ≤ B.length ∧ 0x80 ≤ off ∧ off + B.length ≤ 0xC0 ∧ s' = s) ∨
    (1 ≤ B.length ∧ 0xC4 ≤ off ∧ off + B.length ≤ 0xC8 ∧ s' = s) ∨
    (off = 0xC0 ∧ B.length = 4 ∧ executeCommand B s = .next s') := by
  unfold hostWrite at h
  simp only at h
  split_ifs at h
  all_goals first
    | exact .inl ⟨by omega, by omega, by cases h; rfl⟩
    | exact .inr (.inl ⟨by omega, by omega, by omega, by cases h; rfl⟩)
    | exact .inr (.inr (.inl ⟨by omega, by omega, by omega, by cases h; rfl⟩))
    | exact .inr (.inr (.inr ⟨by omega, by omega, h⟩))

/-- Everything a host read that goes through can do. -/
theorem hostRead_next {off k : Nat} {s s' : State} (h : hostRead off k s = .next s') :
    1 ≤ k ∧ off + k ≤ 0xC8 ∧ s' = { s with answer := s.readBytes off k } := by
  unfold hostRead at h
  simp only at h
  split_ifs at h <;> first | (cases h; done) | (refine ⟨by omega, by omega, ?_⟩; cases h; rfl)

/-- Everything a CMD write can do: run the decoded command, or take IllegalCommand (R92). -/
theorem executeCommand_cases (B : List Byte) (s : State) (hB : B.length = 4) :
    (∃ i, decode B = .ok i ∧ executeCommand B s = exec i s) ∨
    (decode B = .error .illegalCommand ∧ executeCommand B s = .next (raiseError .illegalCommand s)) := by
  unfold executeCommand
  cases hd : decode B with
  | ok i => exact .inl ⟨i, rfl, rfl⟩
  | error e =>
    cases e with
    | illegalCommand => exact .inr ⟨rfl, rfl⟩
    | wrongLength =>
      exfalso
      unfold decode decodeWord at hd
      rw [if_pos hB] at hd
      split at hd <;> cases hd

/-- A CMD write settles some outcome (R92): it never stops. -/
theorem executeCommand_settles (B : List Byte) (s : State) (hB : B.length = 4) :
    ∃ o, executeCommand B s = .next (settle o s) := by
  rcases executeCommand_cases B s hB with ⟨i, -, e⟩ | ⟨-, e⟩
  · obtain ⟨o, ho⟩ := exec_settles i s
    exact ⟨o, by rw [e, ho]⟩
  · exact ⟨.error .illegalCommand, e⟩

/-- A run whose first step goes through is the run from the state it leaves. -/
theorem run_next (M : Host.Core) (k : Nat) (s s' : M.State) (h : M.step s = .next s') :
    M.run (k + 1) s = M.run k s' := by
  rw [Host.Core.run, h]

end Sys2Proof.Machine
end

