-- ==== Sys2Proof/Laws/Primes.lean ====
section
/-! SUPPORT. p and n are prime: Pratt certificates, checked by the kernel. -/

namespace Sys2Proof.Machine

set_option Elab.async false

/-- The low `k` base-16 digits of `e`, most significant first, appended to the exponent of `acc` modulo `m`. -/
def powDigits (m a e : Nat) : Nat → Nat → Nat
  | 0, acc => acc
  | k + 1, acc => powDigits m a e k (acc ^ 16 * a ^ (e >>> (4 * k) % 16) % m)

theorem powDigits_cast (m a e k acc : Nat) :
    ((powDigits m a e k acc : Nat) : ZMod m) = (acc : ZMod m) ^ 16 ^ k * (a : ZMod m) ^ (e % 16 ^ k) := by
  induction k generalizing acc with
  | zero => simp [powDigits, Nat.mod_one]
  | succ k ih =>
    rw [powDigits, ih, shiftRight_mod_digit, ZMod.natCast_mod]
    push_cast
    rw [pow_succ 16 k, pow_add, mul_pow, ← pow_mul, ← pow_mul, mul_comm 16 (16 ^ k)]
    ring

/-- A Boolean check of one step of a Pratt certificate: `a` has order N − 1 modulo N, where `fs` are the prime factors
of N − 1 with repetition. -/
def prattOk (N a : Nat) (fs : List Nat) : Bool :=
  decide (1 < N) && decide (N - 1 < 16 ^ 64) && decide (fs.prod = N - 1) && decide (powDigits N a (N - 1) 64 1 % N = 1)
    && fs.all (fun q => decide (powDigits N a ((N - 1) / q) 64 1 % N ≠ 1))

theorem powDigits_mod_eq_one (N a e : Nat) (hN : 1 < N) (he : e < 16 ^ 64) :
    powDigits N a e 64 1 % N = 1 ↔ (a : ZMod N) ^ e = 1 := by
  have h := powDigits_cast N a e 64 1
  rw [Nat.mod_eq_of_lt he, Nat.cast_one, one_pow, one_mul] at h
  rw [← h]
  have h1 : (1 : ZMod N) = ((1 : Nat) : ZMod N) := by simp
  rw [h1, ZMod.natCast_eq_natCast_iff, Nat.ModEq, Nat.mod_eq_of_lt hN]

/-- A checked certificate step over prime factors proves primality (Lucas). -/
theorem prime_of_pratt (N a : Nat) (fs : List Nat) (hp : ∀ q ∈ fs, q.Prime) (h : prattOk N a fs = true) : N.Prime := by
  simp only [prattOk, Bool.and_eq_true, decide_eq_true_eq, List.all_eq_true] at h
  obtain ⟨⟨⟨⟨hN, hlt⟩, hprod⟩, h1⟩, h2⟩ := h
  refine lucas_primality N (a : ZMod N) ((powDigits_mod_eq_one N a _ hN hlt).mp h1) ?_
  intro q hq hdvd hone
  have hmem : q ∈ fs := by
    rw [← hprod] at hdvd
    obtain ⟨r, hr, hqr⟩ := (Prime.dvd_prod_iff hq.prime).mp hdvd
    rwa [(Nat.prime_dvd_prime_iff_eq hq (hp r hr)).mp hqr]
  exact h2 q hmem ((powDigits_mod_eq_one N a _ hN (lt_of_le_of_lt (Nat.div_le_self _ _) hlt)).mpr hone)

theorem prime_13331831 : Nat.Prime 13331831 :=
  prime_of_pratt 13331831 13 [2, 5, 971, 1373]
    (by
      simp only [List.forall_mem_cons, List.not_mem_nil, false_imp_iff, implies_true, and_true]
      exact ⟨by norm_num, by norm_num, by norm_num, by norm_num⟩)
    (by decide +kernel)

theorem prime_173378833005251801 : Nat.Prime 173378833005251801 :=
  prime_of_pratt 173378833005251801 6 [2, 2, 2, 5, 5, 2621, 24809, 13331831]
    (by
      simp only [List.forall_mem_cons, List.not_mem_nil, false_imp_iff, implies_true, and_true]
      exact ⟨by norm_num, by norm_num, by norm_num, by norm_num, by norm_num, by norm_num, by norm_num, prime_13331831⟩)
    (by decide +kernel)

theorem prime_22149492674086928081353 : Nat.Prime 22149492674086928081353 :=
  prime_of_pratt 22149492674086928081353 5 [2, 2, 2, 3, 5323, 173378833005251801]
    (by
      simp only [List.forall_mem_cons, List.not_mem_nil, false_imp_iff, implies_true, and_true]
      exact ⟨by norm_num, by norm_num, by norm_num, by norm_num, by norm_num, prime_173378833005251801⟩)
    (by decide +kernel)

theorem prime_132896956044521568488119 : Nat.Prime 132896956044521568488119 :=
  prime_of_pratt 132896956044521568488119 6 [2, 3, 22149492674086928081353]
    (by
      simp only [List.forall_mem_cons, List.not_mem_nil, false_imp_iff, implies_true, and_true]
      exact ⟨by norm_num, by norm_num, prime_22149492674086928081353⟩)
    (by decide +kernel)

theorem prime_1206781 : Nat.Prime 1206781 :=
  prime_of_pratt 1206781 10 [2, 2, 3, 5, 20113]
    (by
      simp only [List.forall_mem_cons, List.not_mem_nil, false_imp_iff, implies_true, and_true]
      exact ⟨by norm_num, by norm_num, by norm_num, by norm_num, by norm_num⟩)
    (by decide +kernel)

theorem prime_7240687 : Nat.Prime 7240687 :=
  prime_of_pratt 7240687 3 [2, 3, 1206781]
    (by
      simp only [List.forall_mem_cons, List.not_mem_nil, false_imp_iff, implies_true, and_true]
      exact ⟨by norm_num, by norm_num, prime_1206781⟩)
    (by decide +kernel)

theorem prime_107590001 : Nat.Prime 107590001 :=
  prime_of_pratt 107590001 3 [2, 2, 2, 2, 5, 5, 5, 5, 7, 29, 53]
    (by
      simp only [List.forall_mem_cons, List.not_mem_nil, false_imp_iff, implies_true, and_true]
      exact ⟨by norm_num, by norm_num, by norm_num, by norm_num, by norm_num, by norm_num, by norm_num, by norm_num, by norm_num, by norm_num, by norm_num⟩)
    (by decide +kernel)

theorem prime_255515944373312847190720520512484175977 : Nat.Prime 255515944373312847190720520512484175977 :=
  prime_of_pratt 255515944373312847190720520512484175977 3 [2, 2, 2, 7, 7, 11, 1627, 2657, 4423, 41201, 96557, 7240687, 107590001]
    (by
      simp only [List.forall_mem_cons, List.not_mem_nil, false_imp_iff, implies_true, and_true]
      exact ⟨by norm_num, by norm_num, by norm_num, by norm_num, by norm_num, by norm_num, by norm_num, by norm_num, by norm_num, by norm_num, by norm_num, prime_7240687, prime_107590001⟩)
    (by decide +kernel)

theorem prime_205115282021455665897114700593932402728804164701536103180137503955397371 : Nat.Prime 205115282021455665897114700593932402728804164701536103180137503955397371 :=
  prime_of_pratt 205115282021455665897114700593932402728804164701536103180137503955397371 10 [2, 3, 5, 29, 29, 31, 7723, 132896956044521568488119, 255515944373312847190720520512484175977]
    (by
      simp only [List.forall_mem_cons, List.not_mem_nil, false_imp_iff, implies_true, and_true]
      exact ⟨by norm_num, by norm_num, by norm_num, by norm_num, by norm_num, by norm_num, by norm_num, prime_132896956044521568488119, prime_255515944373312847190720520512484175977⟩)
    (by decide +kernel)

/-- p is prime (R120). -/
theorem p_prime : p.Prime :=
  prime_of_pratt p 3 [2, 3, 7, 13441, 205115282021455665897114700593932402728804164701536103180137503955397371]
    (by
      simp only [List.forall_mem_cons, List.not_mem_nil, false_imp_iff, implies_true, and_true]
      exact ⟨by norm_num, by norm_num, by norm_num, by norm_num, prime_205115282021455665897114700593932402728804164701536103180137503955397371⟩)
    (by decide +kernel)

theorem prime_4681609 : Nat.Prime 4681609 :=
  prime_of_pratt 4681609 23 [2, 2, 2, 3, 97, 2011]
    (by
      simp only [List.forall_mem_cons, List.not_mem_nil, false_imp_iff, implies_true, and_true]
      exact ⟨by norm_num, by norm_num, by norm_num, by norm_num, by norm_num, by norm_num⟩)
    (by decide +kernel)

theorem prime_107361793816595537 : Nat.Prime 107361793816595537 :=
  prime_of_pratt 107361793816595537 3 [2, 2, 2, 2, 16699, 85831, 4681609]
    (by
      simp only [List.forall_mem_cons, List.not_mem_nil, false_imp_iff, implies_true, and_true]
      exact ⟨by norm_num, by norm_num, by norm_num, by norm_num, by norm_num, by norm_num, prime_4681609⟩)
    (by decide +kernel)

theorem prime_44706919 : Nat.Prime 44706919 :=
  prime_of_pratt 44706919 6 [2, 3, 797, 9349]
    (by
      simp only [List.forall_mem_cons, List.not_mem_nil, false_imp_iff, implies_true, and_true]
      exact ⟨by norm_num, by norm_num, by norm_num, by norm_num⟩)
    (by decide +kernel)

theorem prime_174723607534414371449 : Nat.Prime 174723607534414371449 :=
  prime_of_pratt 174723607534414371449 3 [2, 2, 2, 17, 59, 4051, 120233, 44706919]
    (by
      simp only [List.forall_mem_cons, List.not_mem_nil, false_imp_iff, implies_true, and_true]
      exact ⟨by norm_num, by norm_num, by norm_num, by norm_num, by norm_num, by norm_num, by norm_num, prime_44706919⟩)
    (by decide +kernel)

theorem prime_545358713 : Nat.Prime 545358713 :=
  prime_of_pratt 545358713 5 [2, 2, 2, 41, 59, 28181]
    (by
      simp only [List.forall_mem_cons, List.not_mem_nil, false_imp_iff, implies_true, and_true]
      exact ⟨by norm_num, by norm_num, by norm_num, by norm_num, by norm_num, by norm_num⟩)
    (by decide +kernel)

theorem prime_1627771 : Nat.Prime 1627771 :=
  prime_of_pratt 1627771 3 [2, 3, 5, 29, 1871]
    (by
      simp only [List.forall_mem_cons, List.not_mem_nil, false_imp_iff, implies_true, and_true]
      exact ⟨by norm_num, by norm_num, by norm_num, by norm_num, by norm_num⟩)
    (by decide +kernel)

theorem prime_297159362677 : Nat.Prime 297159362677 :=
  prime_of_pratt 297159362677 2 [2, 2, 3, 3, 11, 461, 1627771]
    (by
      simp only [List.forall_mem_cons, List.not_mem_nil, false_imp_iff, implies_true, and_true]
      exact ⟨by norm_num, by norm_num, by norm_num, by norm_num, by norm_num, by norm_num, prime_1627771⟩)
    (by decide +kernel)

theorem prime_29047611873442575647497758179 : Nat.Prime 29047611873442575647497758179 :=
  prime_of_pratt 29047611873442575647497758179 2 [2, 293, 305873, 545358713, 297159362677]
    (by
      simp only [List.forall_mem_cons, List.not_mem_nil, false_imp_iff, implies_true, and_true]
      exact ⟨by norm_num, by norm_num, by norm_num, prime_545358713, prime_297159362677⟩)
    (by decide +kernel)

theorem prime_341948486974166000522343609283189 : Nat.Prime 341948486974166000522343609283189 :=
  prime_of_pratt 341948486974166000522343609283189 2 [2, 2, 3, 3, 3, 109, 29047611873442575647497758179]
    (by
      simp only [List.forall_mem_cons, List.not_mem_nil, false_imp_iff, implies_true, and_true]
      exact ⟨by norm_num, by norm_num, by norm_num, by norm_num, by norm_num, by norm_num, prime_29047611873442575647497758179⟩)
    (by decide +kernel)

/-- n is prime (R151). -/
theorem n_prime : n.Prime :=
  prime_of_pratt n 7 [2, 2, 2, 2, 2, 2, 3, 149, 631, 107361793816595537, 174723607534414371449, 341948486974166000522343609283189]
    (by
      simp only [List.forall_mem_cons, List.not_mem_nil, false_imp_iff, implies_true, and_true]
      exact ⟨by norm_num, by norm_num, by norm_num, by norm_num, by norm_num, by norm_num, by norm_num, by norm_num, by norm_num, prime_107361793816595537, prime_174723607534414371449, prime_341948486974166000522343609283189⟩)
    (by decide +kernel)

end Sys2Proof.Machine
end

