-- ==== Sys2Proof/Laws/Order.lean ====
section
/-! SUPPORT. The number of points of the curve is n (rule R151), so every finite point has order n: n divides the number, which is odd because no point has y = 0, and at most 2p + 1. -/

namespace Sys2Proof.Machine

set_option Elab.async false

theorem G_valid : G.valid = true := by decide +kernel

theorem ptMul_n_G : ptMul n G = .infinity := by decide +kernel

section

variable [Fact (Nat.Prime p)]

/-- −7 is no cube modulo p (R153). -/
theorem cube_ne_neg_seven (x : ZMod p) : x * x * x ≠ -7 := by
  intro hx
  have h3 : p - 1 = 3 * ((p - 1) / 3) := by decide +kernel
  have he : (p - 1) / 3 < 2 ^ 256 := by decide +kernel
  have h0 : x ≠ 0 := by
    rintro rfl
    have h7 : ((7 : Nat) : ZMod p) ≠ 0 := cast_ne_zero_of_lt (by norm_num) (by decide +kernel)
    apply h7
    push_cast
    linear_combination hx
  have h1 := ZMod.pow_card_sub_one_eq_one h0
  have hc : (-7 : ZMod p) = ((p - 7 : Nat) : ZMod p) := by
    rw [Nat.cast_sub (by decide +kernel)]
    simp
  rw [h3, pow_mul, show x ^ 3 = -7 by linear_combination hx, hc] at h1
  have hpow : ((fePow (p - 7) ((p - 1) / 3) : Nat) : ZMod p) = ((1 : Nat) : ZMod p) := by
    rw [fePow_eq _ _ he, cast_mod_p, Nat.cast_pow, h1]
    simp
  have hone := cast_inj (fePow_lt _ _) (by decide) hpow
  revert hone
  decide +kernel

/-- No point of the curve has y = 0 (R153). -/
theorem secp_y_ne_zero {x y : ZMod p} (h : secp.Nonsingular x y) : y ≠ 0 := by
  rintro rfl
  apply cube_ne_neg_seven x
  linear_combination -(secp_nonsingular_iff _ _).mp h

/-- A nonzero number modulo p and its negative have different parities. -/
theorem val_neg_parity {y : ZMod p} (h : y ≠ 0) : (-y).val % 2 ≠ y.val % 2 := by
  have hp : p % 2 = 1 := by decide +kernel
  have := y.val_lt
  have hv : (-y).val = p - y.val := by
    have := NeZero.mk h
    exact ZMod.val_neg_of_ne_zero y
  omega

/-- A point by its x and the parity of its y. -/
def pointCode : secp.Point → Option (ZMod p × Bool)
  | .zero => none
  | .some x y _ => some (x, decide (y.val % 2 = 1))

/-- At most two points have the same x, and their y have different parities. -/
theorem pointCode_injective : Function.Injective pointCode := by
  intro P Q h
  match P, Q, h with
  | .zero, .zero, _ => rfl
  | .some x y hP, .some x' y' hQ, h =>
    simp only [pointCode, Option.some.injEq, Prod.mk.injEq, decide_eq_decide] at h
    obtain ⟨rfl, hpar⟩ := h
    have hyy : y ^ 2 = y' ^ 2 := by
      linear_combination (secp_nonsingular_iff _ _).mp hP - (secp_nonsingular_iff _ _).mp hQ
    rcases sq_eq_sq_iff_eq_or_eq_neg.mp hyy with rfl | rfl
    · rfl
    · exact absurd (by omega) (val_neg_parity (secp_y_ne_zero hQ))

theorem secp_finite : Finite secp.Point :=
  have : NeZero p := ⟨p_pos.ne'⟩
  Finite.of_injective pointCode pointCode_injective

theorem secp_card_le : Nat.card secp.Point ≤ 2 * p + 1 := by
  have : NeZero p := ⟨p_pos.ne'⟩
  have h := Nat.card_le_card_of_injective pointCode pointCode_injective
  rw [Finite.card_option, Nat.card_prod, Nat.card_zmod, Nat.card_eq_fintype_card (α := Bool), Fintype.card_bool] at h
  omega

theorem order_of_G : addOrderOf (toSecp G) = n := by
  have := Fact.mk n_prime
  apply addOrderOf_eq_prime
  · rw [← (ptMul_spec G_valid (by decide +kernel)).2, ptMul_n_G, toSecp_infinity]
  · intro h
    cases toSecp_injective G_valid (Q := .infinity) rfl h

/-- No point is its own negative, so the number of points is odd. -/
theorem secp_card_odd : ¬2 ∣ Nat.card secp.Point := by
  intro h
  have := secp_finite
  have := Fact.mk Nat.prime_two
  obtain ⟨T, hT⟩ := exists_prime_addOrderOf_dvd_card' 2 h
  have hz : T + T = 0 := by rw [← two_nsmul, ← hT, addOrderOf_nsmul_eq_zero]
  have h0 : T ≠ 0 := by
    rintro rfl
    simp at hT
  cases T with
  | zero => exact h0 rfl
  | some x y hP =>
    have hneg := eq_neg_of_add_eq_zero_left hz
    rw [WeierstrassCurve.Affine.Point.neg_some] at hneg
    injection hneg with _ hy
    rw [secp_negY] at hy
    have h2y : (2 : ZMod p) * y = 0 := by linear_combination hy
    exact (mul_ne_zero two_ne_zero_mod_p (secp_y_ne_zero hP)) h2y

/-- The number of points of the curve is n (R151). -/
theorem secp_card : Nat.card secp.Point = n := by
  have := secp_finite
  obtain ⟨m, hm⟩ := order_of_G ▸ addOrderOf_dvd_natCard (toSecp G)
  have hle := secp_card_le
  have hodd := secp_card_odd
  have hpos : 0 < Nat.card secp.Point := Nat.card_pos
  have hn : 2 * p + 1 < 3 * n := by decide +kernel
  have hm3 : m < 3 := by
    by_contra hge
    have := Nat.mul_le_mul_left n (not_lt.mp hge)
    omega
  interval_cases m
  · omega
  · omega
  · omega

/-- Every point is a point of order n or O (R151, R156). -/
theorem nsmul_eq_zero_iff {P : secp.Point} (h0 : P ≠ 0) (k : Nat) : k • P = 0 ↔ n ∣ k := by
  have := Fact.mk n_prime
  have hn : n • P = 0 := secp_card ▸ card_nsmul_eq_zero'
  rw [← addOrderOf_dvd_iff_nsmul_eq_zero, addOrderOf_eq_prime hn h0]

/-- A multiple of a finite point is O exactly for the multiples of n (R167). -/
theorem ptMulIter_eq_infinity_iff {x y : Nat} (hP : (Point.affine x y).valid = true) (k : Nat) :
    ptMulIter k (.affine x y) = .infinity ↔ k % n = 0 := by
  have h0 : toSecp (.affine x y) ≠ 0 := fun h => by cases toSecp_injective hP (Q := .infinity) rfl h
  obtain ⟨hv, he⟩ := ptMulIter_spec hP k
  rw [← Nat.dvd_iff_mod_eq_zero, ← nsmul_eq_zero_iff h0, ← he]
  exact ⟨fun h => by rw [h, toSecp_infinity], fun h => toSecp_injective hv rfl h⟩

end

end Sys2Proof.Machine
end

