-- ==== Sys2Proof/Laws/PerInstr.lean ====
section
/-! SUPPORT. The per-instruction family: the fields of every command are those of a legal command word. -/

namespace Sys2Proof.Laws.LegalFields

/-- A command's fields pass the four conditions of rule R91, and splitting its word gives them back (R88). -/
def Statement (i : Instr) : Prop :=
  i.wellFormed = true ∧ fieldsOfWord (encode i) = i.fields

theorem fadd : Statement .fadd := ⟨by decide, by decide⟩
theorem fsub : Statement .fsub := ⟨by decide, by decide⟩
theorem fmul : Statement .fmul := ⟨by decide, by decide⟩
theorem fsqr : Statement .fsqr := ⟨by decide, by decide⟩
theorem fneg : Statement .fneg := ⟨by decide, by decide⟩
theorem finv : Statement .finv := ⟨by decide, by decide⟩
theorem feq : Statement .feq := ⟨by decide, by decide⟩
theorem fpar : Statement .fpar := ⟨by decide, by decide⟩
theorem fdec : Statement .fdec := ⟨by decide, by decide⟩
theorem padd (ia ib : Bool) : Statement (.padd ia ib) := by cases ia <;> cases ib <;> exact ⟨by decide, by decide⟩
theorem pdbl (ia : Bool) : Statement (.pdbl ia) := by cases ia <;> exact ⟨by decide, by decide⟩
theorem pmul (ia : Bool) : Statement (.pmul ia) := by cases ia <;> exact ⟨by decide, by decide⟩
theorem pneg (ia : Bool) : Statement (.pneg ia) := by cases ia <;> exact ⟨by decide, by decide⟩
theorem peq (ia ib : Bool) : Statement (.peq ia ib) := by cases ia <;> cases ib <;> exact ⟨by decide, by decide⟩
theorem liftx : Statement .liftx := ⟨by decide, by decide⟩
theorem pchk (ia : Bool) : Statement (.pchk ia) := by cases ia <;> exact ⟨by decide, by decide⟩
theorem pgen : Statement .pgen := ⟨by decide, by decide⟩
theorem thash : Statement .thash := ⟨by decide, by decide⟩
theorem chal : Statement .chal := ⟨by decide, by decide⟩
theorem verify : Statement .verify := ⟨by decide, by decide⟩

end Sys2Proof.Laws.LegalFields
end

