-- ==== Sys2Proof/Laws/Sha256.lean ====
section
/-! SUPPORT. What the parts of SHA-256 do (R190 to R195): the rotation, the pieces a message is cut into, the words of a block, the recurrence of the message schedule. -/

namespace Sys2Proof.Machine

/-- `ROTR` is the library's rotation (R190). -/
theorem rotr_eq_rotateRight (x : Word32) {k : Nat} (h : k < 32) : rotr x k = x.rotateRight k := by
  simp [rotr, BitVec.rotateRight, BitVec.rotateRightAux, Nat.mod_eq_of_lt h]

/-- The padded message is whole blocks (R191). -/
theorem shaPad_length_mod (M : List Byte) : (shaPad M).length % 64 = 0 := by
  simp [shaPad, shaPadding]; omega

@[simp] theorem pieces_length {α : Type} (size count : Nat) (l : List α) : (pieces size count l).length = count := by
  induction count generalizing l with
  | zero => rfl
  | succ count ih => simp [pieces, ih]

theorem pieces_getElem? {α : Type} (size count : Nat) (l : List α) {i : Nat} (h : i < count) :
    (pieces size count l)[i]? = some ((l.drop (size * i)).take size) := by
  induction count generalizing l i with
  | zero => omega
  | succ count ih =>
    cases i with
    | zero => simp [pieces]
    | succ i =>
      simp only [pieces, List.getElem?_cons_succ]
      rw [ih _ (by omega), List.drop_drop, Nat.mul_succ, Nat.add_comm]

/-- A word is its four bytes, the first the most significant (R191). -/
theorem word32OfBytes_take_drop (B : List Byte) {i : Nat} (h : i + 4 ≤ B.length) :
    word32OfBytes ((B.drop i).take 4)
      = B.getD i 0#8 ++ B.getD (i + 1) 0#8 ++ B.getD (i + 2) 0#8 ++ B.getD (i + 3) 0#8 := by
  have e : (B.drop i).take 4 = [B.getD i 0#8, B.getD (i + 1) 0#8, B.getD (i + 2) 0#8, B.getD (i + 3) 0#8] := by
    apply List.ext_getElem?
    intro j
    rw [List.getElem?_take, List.getElem?_drop]
    match j with
    | 0 => simp [List.getD_eq_getElem?_getD, List.getElem?_eq_getElem (show i < B.length by omega)]
    | 1 => simp [List.getD_eq_getElem?_getD, List.getElem?_eq_getElem (show i + 1 < B.length by omega)]
    | 2 => simp [List.getD_eq_getElem?_getD, List.getElem?_eq_getElem (show i + 2 < B.length by omega)]
    | 3 => simp [List.getD_eq_getElem?_getD, List.getElem?_eq_getElem (show i + 3 < B.length by omega)]
    | _ + 4 => simp
  rw [e]
  generalize B.getD i 0#8 = b0, B.getD (i + 1) 0#8 = b1, B.getD (i + 2) 0#8 = b2, B.getD (i + 3) 0#8 = b3
  apply BitVec.eq_of_toNat_eq
  have h0 := b0.isLt
  have h1 := b1.isLt
  have h2 := b2.isLt
  have h3 := b3.isLt
  simp only [word32OfBytes, intOfBytes, BitVec.toNat_ofNat, BitVec.toNat_append, List.foldl]
  rw [← Nat.shiftLeft_add_eq_or_of_lt h1, ← Nat.shiftLeft_add_eq_or_of_lt h2, ← Nat.shiftLeft_add_eq_or_of_lt h3]
  simp only [Nat.shiftLeft_eq]
  omega

@[simp] theorem scheduleExtend_length (count : Nat) (rev : List Word32) :
    (scheduleExtend count rev).length = rev.length + count := by
  induction count generalizing rev with
  | zero => rfl
  | succ count ih => rw [scheduleExtend, ih]; simp; omega

@[simp] theorem schedule_length (block : List Byte) : (schedule block).length = 64 := by
  simp [schedule, blockWords]

/-- Extending a schedule keeps the words that stand in it. -/
theorem scheduleExtend_getD_of_lt (count : Nat) (rev : List Word32) {t : Nat} (h : t < rev.length) :
    (scheduleExtend count rev).reverse.getD t 0#32 = rev.reverse.getD t 0#32 := by
  induction count generalizing rev with
  | zero => rfl
  | succ count ih =>
    rw [scheduleExtend, ih _ (by simp; omega)]
    simp [List.getD_eq_getElem?_getD, List.getElem?_append, h]

/-- The recurrence of the message schedule (R193), of every word that `scheduleExtend` adds. -/
theorem scheduleExtend_getD (count : Nat) (rev : List Word32) {t : Nat} (h16 : 16 ≤ rev.length) (h : rev.length ≤ t)
    (ht : t < rev.length + count) :
    let W := fun j => (scheduleExtend count rev).reverse.getD j 0#32
    W t = W (t - 16) + (rotr (W (t - 15)) 7 ^^^ rotr (W (t - 15)) 18 ^^^ W (t - 15) >>> 3) + W (t - 7)
      + (rotr (W (t - 2)) 17 ^^^ rotr (W (t - 2)) 19 ^^^ W (t - 2) >>> 10) := by
  induction count generalizing rev with
  | zero => omega
  | succ count ih =>
    intro W
    by_cases e : t = rev.length
    · have hold : ∀ j, 1 ≤ j → j ≤ 16 → W (t - j) = rev.getD (j - 1) 0#32 := by
        intro j h1 h2
        simp only [W]
        rw [scheduleExtend_getD_of_lt _ _ (by omega), List.getD_eq_getElem?_getD, List.getD_eq_getElem?_getD,
          List.getElem?_reverse (by omega)]
        congr 2; omega
      have hnew : W t = scheduleNext rev := by
        simp only [W, scheduleExtend]
        rw [scheduleExtend_getD_of_lt _ _ (by simp; omega)]
        simp [List.getD_eq_getElem?_getD, e]
      rw [hold 16 (by omega) (by omega), hold 15 (by omega) (by omega), hold 7 (by omega) (by omega),
        hold 2 (by omega) (by omega), hnew]
      rfl
    · exact ih (scheduleNext rev :: rev) (by simp; omega) (by simp; omega) (by simp; omega)

end Sys2Proof.Machine
end

