-- ==== Sys2Proof/Machine/ScriptText.lean ====
section
/-! DEFINITION. The plain text of the host script: one line, its tokens, and the transaction line or pseudo-operation it stands for (rules R95, R96). -/

namespace Sys2Proof.Machine

/-- What a line of script text can be: one transaction (R95) or a pseudo-operation (R96). -/
inductive ScriptItem where
  /-- A line that is one transaction. -/
  | line (l : ScriptLine)
  /-- A line that is a pseudo-operation. -/
  | pseudo (l : PseudoLine)
  deriving DecidableEq, Repr

/-- A script item, run on the block. -/
def ScriptItem.run (item : ScriptItem) (s : State) : Host.Outcome State Fault Refusal :=
  match item with
  | .line l => l.run s
  | .pseudo l => l.run s

/-- The word gathered so far, its last character first, as a token; none when it is empty. -/
def flushWord (cur : List Char) : List (List Char) :=
  if cur = [] then [] else [cur.reverse]

/-- The tokens of a line: words between blanks, and each comma; `;` starts a comment (R95). -/
def tokensFrom : List Char → List Char → List (List Char)
  | [], cur => flushWord cur
  | c :: rest, cur =>
    if c = ';' then flushWord cur
    else if c = ' ' then flushWord cur ++ tokensFrom rest []
    else if c = ',' then flushWord cur ++ [','] :: tokensFrom rest []
    else tokensFrom rest (c :: cur)

/-- A register name: the letter and its number, below `count`. -/
def registerName (letter : Char) (count : Nat) (token : List Char) : Option (Fin count) :=
  match token with
  | [c, d] =>
    match hexDigit d with
    | some k => if h : k < count then (if c = letter then some ⟨k, h⟩ else none) else none
    | none => none
  | _ => none

/-- `<MNEMONIC>` with the flags named after it (R95): the row's word plus 0x100·IA plus 0x200·IB, which must be legal. -/
def commandLine (mnemonic : List Char) (ia ib : Bool) : Option ScriptItem :=
  match opcodeMap.find? (fun row => row.mnemonic.toList == mnemonic) with
  | none => none
  | some row =>
    match decodeWord (row.word + (if ia then 0x100#32 else 0#32) + (if ib then 0x200#32 else 0#32)) with
    | .ok i => some (.line (.command i))
    | .error _ => none

/-- A line of one token: `RESET`, `RDS`, `FTOB`, or a mnemonic. -/
def oneToken (a : List Char) : Option ScriptItem :=
  if a = "RESET".toList then some (.line .reset)
  else if a = "RDS".toList then some (.line .rds)
  else if a = "FTOB".toList then some (.pseudo .ftob)
  else commandLine a false false

/-- A line of two tokens: `CMD <hex8>`, `RD r<i>`, `RDO o<i>`, `LDV <hex128>`, or a mnemonic with one flag. -/
def twoTokens (a b : List Char) : Option ScriptItem :=
  if a = "CMD".toList then (hexNumber 8 b).map (fun v => .line (.cmd (BitVec.ofNat 32 v)))
  else if a = "RD".toList then (registerName 'r' 2 b).map (fun i => .line (.rd i))
  else if a = "RDO".toList then (registerName 'o' 4 b).map (fun i => .line (.rdo i))
  else if a = "LDV".toList then (hexNumber 256 b).map (fun v => .pseudo (.ldv (bytesOfNat 128 v)))
  else if b = "ia".toList then commandLine a true false
  else if b = "ib".toList then commandLine a false true
  else none

/-- A line of the form `<a> <b>, <c>`: `WR`, `WRB`, `MV`, `MVP`, or a mnemonic with both flags. R95 gives `WRB` for an
operand-buffer offset: that the offsets 80 to FF also make a line, which is the MemWrite it names, is the model's DESIGN CHOICE
(log entry 16). -/
def threeTokens (a b c : List Char) : Option ScriptItem :=
  if a = "WR".toList then
    match registerName 'o' 4 b, hexNumber 64 c with
    | some i, some v => some (.line (.wr i (BitVec.ofNat 256 v)))
    | _, _ => none
  else if a = "WRB".toList then
    match hexNumber 2 b, hexBytes c with
    | some off, some B => some (.line (.wrb off B))
    | _, _ => none
  else if a = "MV".toList then
    match registerName 'o' 4 b, registerName 'r' 2 c with
    | some i, some j => some (.pseudo (.mv i j))
    | _, _ => none
  else if a = "MVP".toList then
    if b = "oa".toList ∧ c = "r".toList then some (.pseudo .mvpA)
    else if b = "ob".toList ∧ c = "r".toList then some (.pseudo .mvpB)
    else none
  else if b = "ia".toList ∧ c = "ib".toList then commandLine a true true
  else none

/-- A line's tokens as an item; none when they are no line of rules R95 and R96. -/
def scriptItemOfTokens : List (List Char) → Option ScriptItem
  | [a] => oneToken a
  | [a, b] => twoTokens a b
  | [a, b, [','], c] => threeTokens a b c
  | _ => none

/-- A line of script text as an item (R95, R96). -/
def scriptItem (text : String) : Option ScriptItem :=
  scriptItemOfTokens (tokensFrom text.toList [])

/-- The items of a script, line by line; a line with no token, such as a comment alone, adds none. -/
def scriptItems : List String → Option (List ScriptItem)
  | [] => some []
  | text :: later =>
    if tokensFrom text.toList [] = [] then scriptItems later
    else
      match scriptItem text, scriptItems later with
      | some item, some items => some (item :: items)
      | _, _ => none

/-- Script items one after another, in the order given (R56). -/
def runItems : List ScriptItem → State → Host.Outcome State Fault Refusal
  | [], s => .next s
  | item :: later, s => thenDo (item.run s) (runItems later)

end Sys2Proof.Machine
end

