-- ==== Sys2Proof/Tests/Slice0.lean ====
section
/-! SUPPORT. The model's own tests: the WellFormed smoke tests, decoding of words written out by hand, one or two of the spec's vectors per command (95_test_vectors.md, Tables F, P, H, V, D, B, S and section 10), and for every statement that has hypotheses a witness that meets them. -/

namespace Sys2Proof.Tests

open Sys2Proof.Machine Sys2Proof.Statements

set_option Elab.async false

/-- The reset state with these operand registers. -/
def regs (a b c d : Nat) : State :=
  { State.reset with
    opnd0 := BitVec.ofNat 256 a
    opnd1 := BitVec.ofNat 256 b
    opnd2 := BitVec.ofNat 256 c
    opnd3 := BitVec.ofNat 256 d }

/-- res[0], res[1] and the STATUS word. -/
def outputs (s : State) : Nat × Nat × Word32 :=
  (s.res0.toNat, s.res1.toNat, s.status.word)

/-- One step of the command word `w` on these operands, as a row of the spec's tables states it. The operands must stand
unchanged, and the port must be empty again. -/
def row (w : Nat) (a b c d : Nat) : Option (Nat × Nat × Word32) :=
  match step ((regs a b c d).withFetchWord 32 w) with
  | .next t =>
    if t = { regs a b c d with res0 := t.res0, res1 := t.res1, status := t.status } then some (outputs t) else none
  | .fault _ => none
  | .refused _ => none

/-- The outputs and the answer after host transactions from reset. -/
def after (ts : List Transaction) : Option ((Nat × Nat × Word32) × List Byte) :=
  match transactAll ts State.reset with
  | .next t => some (outputs t, t.answer)
  | .fault _ => none
  | .refused _ => none

/-- The reason a host transaction is refused at reset. -/
def refusal (t : Transaction) : Option Refusal :=
  match transact t State.reset with
  | .next _ => none
  | .fault _ => none
  | .refused r => some r

/-! ### WellFormed: one ill-formed value for each check -/

theorem test_wellformed_accepts : (CmdFields.mk 0x20#8 true true 0#22).wellFormed = true := by decide
theorem test_wellformed_refuses_opcode : (CmdFields.mk 0x19#8 false false 0#22).wellFormed = false := by decide
theorem test_wellformed_refuses_ia : (CmdFields.mk 0x10#8 true false 0#22).wellFormed = false := by decide
theorem test_wellformed_refuses_ib : (CmdFields.mk 0x21#8 false true 0#22).wellFormed = false := by decide
theorem test_wellformed_refuses_high_bits : (CmdFields.mk 0x20#8 false false 1#22).wellFormed = false := by decide
theorem test_config_wellformed : (Config.mk 0 3000#64 1).wellFormed = true := by decide
theorem test_config_refuses_no_blocks : (Config.mk 0 3000#64 0).wellFormed = false := by decide

/-! ### Decoding: every constructor from a word written out from rules R88 to R90 -/

theorem test_decode_field :
    [0x10, 0x11, 0x12, 0x13, 0x14, 0x15, 0x16, 0x17, 0x18].map (decodeTableWord 32) =
      [some .fadd, some .fsub, some .fmul, some .fsqr, some .fneg, some .finv, some .feq, some .fpar, some .fdec] := by
  decide
/-- Bits 9 and 8 of 0x0320 are IB and IA, of 0x0220 IB alone, of 0x0120 IA alone. -/
theorem test_decode_padd :
    [0x0020, 0x0120, 0x0220, 0x0320].map (decodeTableWord 32) =
      [some (.padd false false), some (.padd true false), some (.padd false true), some (.padd true true)] := by decide
theorem test_decode_peq :
    [0x0024, 0x0124, 0x0224, 0x0324].map (decodeTableWord 32) =
      [some (.peq false false), some (.peq true false), some (.peq false true), some (.peq true true)] := by decide
theorem test_decode_one_point :
    [0x21, 0x121, 0x22, 0x122, 0x23, 0x123, 0x26, 0x126].map (decodeTableWord 32) =
      [some (.pdbl false), some (.pdbl true), some (.pmul false), some (.pmul true), some (.pneg false),
        some (.pneg true), some (.pchk false), some (.pchk true)] := by decide
theorem test_decode_others :
    [0x25, 0x27, 0x30, 0x31, 0x40].map (decodeTableWord 32) =
      [some .liftx, some .pgen, some .thash, some .chal, some .verify] := by decide
/-- Table D, rows D2 to D23: none of these words is a command. -/
theorem test_decode_illegal :
    [0x00, 0x0F, 0x19, 0x1F, 0x28, 0x2F, 0x32, 0x41, 0xFF, 0x110, 0x210, 0x221, 0x222, 0x223, 0x226, 0x125, 0x127, 0x130,
      0x140, 0x420, 0x10020, 0x80000040, 0xFFFFFFFF].all (fun w => decodeTableWord 32 w == none) = true := by decide
/-- The word's bytes are big-endian: 40 00 00 00 is not VERIFY. -/
theorem test_decode_byte_order :
    decode [0x40#8, 0x00#8, 0x00#8, 0x00#8] = .error .illegalCommand ∧
    decode [0x00#8, 0x00#8, 0x00#8, 0x40#8] = .ok .verify ∧
    decode [0x00#8, 0x00#8, 0x40#8] = .error .wrongLength := by decide

/-! ### FieldElement commands (Table F; p − 1 etc. are written out) -/

/-- The arbitrary field elements A and B of the tables (section 3 there). -/
def valA : Nat := 0x1111111111111111111111111111111111111111111111111111111111111111
/-- B. -/
def valB : Nat := 0xFEDCBA9876543210FEDCBA9876543210FEDCBA9876543210FEDCBA9876543210
/-- p. -/
def valP : Nat := 0xFFFFFFFFFFFFFFFFFFFFFFFFFFFFFFFFFFFFFFFFFFFFFFFFFFFFFFFEFFFFFC2F
/-- MAX. -/
def valMax : Nat := 0xFFFFFFFFFFFFFFFFFFFFFFFFFFFFFFFFFFFFFFFFFFFFFFFFFFFFFFFFFFFFFFFF

/-- F3, F7. -/
theorem test_fadd : row 0x10 (valP - 1) (valP - 1) 0 0 = some (valP - 2, 0, 0x01#32) ∧
    row 0x10 0 valMax 0 0 = some (0, 0, 0x21#32) := by decide +kernel
/-- F8, F10. -/
theorem test_fsub : row 0x11 3 5 0 0 = some (valP - 2, 0, 0x01#32) ∧
    row 0x11 valB valA 0 0 =
      some (0xEDCBA987654320FFEDCBA987654320FFEDCBA987654320FFEDCBA987654320FF, 0, 0x01#32) := by decide +kernel
/-- F14, F16. -/
theorem test_fmul : row 0x12 (2 ^ 128) (2 ^ 128) 0 0 = some (0x1000003D1, 0, 0x01#32) ∧
    row 0x12 valA valB 0 0 =
      some (0xF10EA3B04663F94AF10EA3B04663F94AF10EA3B04663F94B020C4A3B0D6DF36A, 0, 0x01#32) := by decide +kernel
/-- F22, F25. -/
theorem test_fsqr : row 0x13 valA 0 0 0 =
      some (0x2468ACF13579BE02468ACF13579BE02468ACF13579BE02468BF258C7AE148AE0, 0, 0x01#32) ∧
    row 0x13 (valP + 1) 0 0 0 = some (0, 0, 0x21#32) := by decide +kernel
/-- F26, F27. -/
theorem test_fneg : row 0x14 0 0 0 0 = some (0, 0, 0x01#32) ∧ row 0x14 1 0 0 0 = some (valP - 1, 0, 0x01#32) := by
  decide +kernel
/-- F31, F35. -/
theorem test_finv : row 0x15 0 0 0 0 = some (0, 0, 0x01#32) ∧
    row 0x15 valA 0 0 0 =
      some (0x25EE56DE6354D0254CA671CBC56E271F4C0AD8AE16A5E849A77A673157683BE3, 0, 0x01#32) := by decide +kernel
/-- F42, F43. -/
theorem test_feq : row 0x16 (valP - 1) (valP - 1) 0 0 = some (1, 0, 0x03#32) ∧
    row 0x16 1 (valP + 1) 0 0 = some (0, 0, 0x21#32) := by decide +kernel
/-- F45, F46. -/
theorem test_fpar : row 0x17 1 0 0 0 = some (1, 0, 0x03#32) ∧ row 0x17 (valP - 1) 0 0 0 = some (0, 0, 0x01#32) := by
  decide +kernel
/-- F51, F52. -/
theorem test_fdec : row 0x18 (valP - 1) 0 0 0 = some (valP - 1, 0, 0x01#32) ∧
    row 0x18 valP 0 0 0 = some (0, 0, 0x21#32) := by decide +kernel

/-! ### CurvePoint commands (Table P) -/

/-- The coordinates of G, −G, 2G and 3G (section 3 there). -/
def valGx : Nat := 0x79BE667EF9DCBBAC55A06295CE870B07029BFCDB2DCE28D959F2815B16F81798
/-- Gy. -/
def valGy : Nat := 0x483ADA7726A3C4655DA4FBFC0E1108A8FD17B448A68554199C47D08FFB10D4B8
/-- −Gy. -/
def valNegGy : Nat := 0xB7C52588D95C3B9AA25B0403F1EEF75702E84BB7597AABE663B82F6F04EF2777
/-- G2x. -/
def valG2x : Nat := 0xC6047F9441ED7D6D3045406E95C07CD85C778E4B8CEF3CA7ABAC09B95C709EE5
/-- G2y. -/
def valG2y : Nat := 0x1AE168FEA63DC339A3C58419466CEAEEF7F632653266D0E1236431A950CFE52A
/-- G3x. -/
def valG3x : Nat := 0xF9308A019258C31049344F85F89D5229B531C845836F99B08601F113BCE036F9
/-- G3y. -/
def valG3y : Nat := 0x388F7B0F632DE8140FE337E62A37F3566500A99934C2231B6CB9FD7584B8E672

/-- P5, P7. -/
theorem test_padd_sum : row 0x20 valGx valGy valG2x valG2y = some (valG3x, valG3y, 0x01#32) ∧
    row 0x20 valGx valGy valGx valGy = some (valG2x, valG2y, 0x01#32) := by decide +kernel
/-- P8, P9, P16, P17: opposite points, the flag IA, the order of the checks. -/
theorem test_padd_corners : row 0x20 valGx valGy valGx valNegGy = some (0, 0, 0x05#32) ∧
    row 0x120 0 0 valGx valGy = some (valGx, valGy, 0x01#32) ∧
    row 0x20 1 1 valP valGy = some (0, 0, 0x41#32) ∧ row 0x20 1 valP valGx valGy = some (0, 0, 0x21#32) := by
  decide +kernel
/-- P2, P4. -/
theorem test_pdbl : row 0x21 valGx valGy 0 0 = some (valG2x, valG2y, 0x01#32) ∧
    row 0x121 0xDEAD 0xBEEF 0 0 = some (0, 0, 0x05#32) := by decide +kernel
/-- P33: opnd[3] is not read. -/
theorem test_pmul_small : row 0x22 valGx valGy 3 valMax = some (valG3x, valG3y, 0x01#32) := by decide +kernel
/-- P27: the scalar n + 1 is reduced to 1. -/
theorem test_pmul_reduces :
    row 0x22 valGx valGy 0xFFFFFFFFFFFFFFFFFFFFFFFFFFFFFFFEBAAEDCE6AF48A03BBFD25E8CD0364142 0 =
      some (valGx, valGy, 0x01#32) := by decide +kernel
/-- P34, P36. -/
theorem test_pneg : row 0x23 valGx valGy 0 0 = some (valGx, valNegGy, 0x01#32) ∧
    row 0x123 5 5 0 0 = some (0, 0, 0x05#32) := by decide +kernel
/-- P39, P41, P43, P44. -/
theorem test_peq : row 0x24 valGx valGy valGx valNegGy = some (0, 0, 0x01#32) ∧
    row 0x324 0 0 0 0 = some (1, 0, 0x03#32) ∧ row 0x224 valGx valGy 0 0 = some (0, 0, 0x01#32) ∧
    row 0x24 valGx valGy 1 1 = some (0, 0, 0x41#32) := by decide +kernel
/-- P45, P48, P52. -/
theorem test_liftx : row 0x25 1 0 0 0 =
      some (1, 0x4218F20AE6C646B363DB68605822FB14264CA8D2587FDD6FBC750D587E76A7EE, 0x01#32) ∧
    row 0x25 5 0 0 0 = some (0, 0, 0x31#32) ∧ row 0x25 valP 0 0 0 = some (0, 0, 0x21#32) := by decide +kernel
/-- P57, P59, P61. -/
theorem test_pchk : row 0x26 valGx valNegGy 0 0 = some (valGx, valNegGy, 0x01#32) ∧
    row 0x126 9 9 0 0 = some (0, 0, 0x05#32) ∧ row 0x26 valP 0 0 0 = some (0, 0, 0x21#32) := by decide +kernel
/-- P1. -/
theorem test_pgen : row 0x27 0 0 0 0 = some (valGx, valGy, 0x01#32) := by decide +kernel

/-! ### TaggedHash and VERIFY (Tables S, H, V) -/

/-- Table S: the messages of 0 and of 3 bytes. -/
theorem test_sha256 :
    intOfBytes (sha256 []) = 0xE3B0C44298FC1C149AFBF4C8996FB92427AE41E4649B934CA495991B7852B855 ∧
    intOfBytes (sha256 [0x61#8, 0x62#8, 0x63#8]) =
      0xBA7816BF8F01CFEA414140DE5DAE2223B00361A396177A9CB410FF61F20015AD := by decide +kernel
/-- H8: the operands' order. -/
theorem test_thash : row 0x30 3 2 1 0 =
    some (0xA2466F2BD12286041694EE7519B2060E47D976710EAF6A13F651A3CCBE2F3DC1, 0, 0x01#32) := by decide +kernel
/-- H9: opnd[3] is not read. -/
theorem test_chal : row 0x31 1 2 3 valMax =
    some (0x05A5B4A544C77E6C3CEF2DD7D39A2988BF74197B5EDF473D81F4B5F1561C88AD, 0, 0x01#32) := by decide +kernel
/-- V1. -/
theorem test_verify_accepts :
    row 0x40 0 0xE907831F80848D1069A5371B402410364BDF1C5F8307B0084C55F1CE2DCA8215
        0x25F66A4A85EA8B71E482A74F382D2CE5EBEEE8FDB2172F477DF4900D310536C0 valG3x = some (1, 0, 0x03#32) := by
  decide +kernel
/-- V18: the public key 0 does not lift. -/
theorem test_verify_rejects : row 0x40 0 0 0 0 = some (0, 0, 0x01#32) := by decide +kernel

/-! ### Illegal words, errors, host access, reset (Tables D, B) -/

/-- D10, D22. -/
theorem test_illegal_command : row 0x110 2 3 0 0 = some (0, 0, 0x11#32) ∧
    row 0x80000040 2 3 0 0 = some (0, 0, 0x11#32) := by decide +kernel
/-- D27: an error is not sticky. -/
theorem test_error_not_sticky :
    after [.memWrite 0 (bytes32 2#256), .memWrite 0x20 (bytes32 3#256), .memWrite 0xC0 [0x00#8, 0x00#8, 0x00#8, 0x19#8],
      .memWrite 0xC0 [0x00#8, 0x00#8, 0x00#8, 0x10#8]] = some ((5, 0, 0x01#32), []) := by decide +kernel
/-- B3: res[0] = 1 has its 01 at offset 0x9F. -/
theorem test_result_byte_order :
    after [.memWrite 0xC0 [0x00#8, 0x00#8, 0x00#8, 0x16#8], .memRead 0x9E 2] =
      some ((1, 0, 0x03#32), [0x00#8, 0x01#8]) := by decide +kernel
/-- B4: STATUS has its low byte at offset 0xC7. -/
theorem test_status_byte_order :
    after [.memWrite 0xC0 [0x00#8, 0x00#8, 0x00#8, 0x16#8], .memRead 0xC4 4] =
      some ((1, 0, 0x03#32), [0x00#8, 0x00#8, 0x00#8, 0x03#8]) ∧
    after [.memWrite 0xC0 [0x00#8, 0x00#8, 0x00#8, 0x16#8], .memRead 0xC7 1] =
      some ((1, 0, 0x03#32), [0x03#8]) := by decide +kernel
/-- B6, B7: writes to res and STATUS are ignored. -/
theorem test_ignored_writes :
    after [.memWrite 0xC0 [0x00#8, 0x00#8, 0x00#8, 0x16#8], .memWrite 0x80 (bytes32 7#256),
      .memWrite 0xC4 [0xFF#8, 0xFF#8, 0xFF#8, 0xFF#8]] = some ((1, 0, 0x03#32), []) := by decide +kernel
/-- B10: a write over the end of opnd[0] and the start of opnd[1]. -/
theorem test_spanning_write :
    after [.memWrite 0x1E [0x78#8, 0x58#8, 0x72#8, 0x66#8], .memRead 0x1D 6] =
      some ((0, 0, 0#32), [0x00#8, 0x78#8, 0x58#8, 0x72#8, 0x66#8, 0x00#8]) := by decide +kernel
/-- B12: reset after a command. -/
theorem test_reset :
    transactAll [.memWrite 0 (bytes32 2#256), .memWrite 0xC0 [0x00#8, 0x00#8, 0x00#8, 0x13#8], .reset] State.reset =
      .next State.reset := by rfl
/-- B15: the four accesses that have no meaning. -/
theorem test_refusals :
    [refusal (.memWrite 0xC0 [0#8, 0#8]), refusal (.memWrite 0x7E [0#8, 0#8, 0#8, 0#8]), refusal (.memRead 0xBE 4),
      refusal (.memRead 0xC8 1)] =
      [some .partialCommandWrite, some .straddlesRegisters, some .straddlesRegisters, some .outsideWindow] := by decide

/-! ### The adapter, the platform, the host script (section 10; rules R60, R95, R96) -/

/-- The parameters with the default cost. -/
def config : Config := ⟨0x1000, Config.defaultGasCost, 2⟩

/-- The output and the cost of a call on a block at reset. -/
def call (gas : Gas) (input : List Byte) : Option (List Byte × Gas) :=
  match adapterRun config gas input State.reset with
  | .next r => some (r.output, r.gasUsed)
  | .fault _ => none
  | .refused _ => none

/-- A3, A7: a wrong length gives the false output at the fixed cost; too little gas is fatal. -/
theorem test_adapter_length_and_gas :
    call 3000#64 [] = some (bytes32 0#256, 3000#64) ∧
    adapterRun config 2999#64 (List.replicate 128 0#8) State.reset = .fault .outOfGas := ⟨by decide +kernel, rfl⟩
/-- 128 zero bytes are input for VERIFY (V18), which answers false. -/
theorem test_adapter_calls_verify : call 3000#64 (List.replicate 128 0#8) = some (bytes32 0#256, 3000#64) := by
  decide +kernel
/-- BASE places the window: STATUS stands at BASE + 0xC4. -/
theorem test_base : busRead config 0x10C4 4 State.reset = .next { State.reset with answer := [0#8, 0#8, 0#8, 0#8] } ∧
    busRead config 0xFFF 1 State.reset = .refused .outsideWindow := ⟨rfl, rfl⟩
/-- Program P1's idea with R96: FADD, then MV o0, r0. -/
theorem test_move :
    (match transactAll [.memWrite 0 (bytes32 2#256), .memWrite 0x20 (bytes32 3#256),
        .memWrite 0xC0 [0x00#8, 0x00#8, 0x00#8, 0x10#8]] State.reset with
      | .next s =>
        match PseudoLine.run (.mv 0 0) s with
        | .next t => some (t.opnd0.toNat, t.opnd1.toNat)
        | .fault _ => none
        | .refused _ => none
      | .fault _ => none
      | .refused _ => none) = some (5, 3) := by decide +kernel

/-- Program P1 (section 11 there) from its script text, as far as its first copy; and the lines R95 gives as examples. -/
theorem test_script_text :
    (match scriptItems ["RESET ; all state 0", "WR o0, 2", "WR o1, 0000000000000003", "FADD", "RDS", "MV o1, r0"] with
      | some items =>
        match runItems items State.reset with
        | .next t => some (t.opnd0.toNat, t.opnd1.toNat, outputs t)
        | .fault _ => none
        | .refused _ => none
      | none => none) = some (2, 5, (5, 0, 0x01#32)) ∧
    scriptItem "PADD ib" = some (.line (.command (.padd false true))) ∧
    (ScriptLine.command (.padd false true)).transaction = .memWrite 0xC0 [0x00#8, 0x00#8, 0x02#8, 0x20#8] ∧
    scriptItem "WRB 1E, 7858" = some (.line (.wrb 0x1E [0x78#8, 0x58#8])) ∧ scriptItem "FADD ia" = none := by
  decide +kernel
/-- A record of rule R249 with a malformed length and the empty `Expected`. -/
theorem test_record :
    ((TestRecord.mk "00ff" "" 3000#64 "short" false).vector.map (fun v => v.satisfied config State.reset)) = some true := by
  decide +kernel

/-! ### Witnesses: for each statement with hypotheses, values that meet them, at the ends of their ranges -/

/-- The reset state with these transactions waiting on the port. -/
def waiting (ts : List Transaction) : State :=
  { State.reset with pending := ts }

theorem witness_StepRunsTheDecodedCommand :
    (waiting [.memWrite 0xC0 [0x00#8, 0x00#8, 0x03#8, 0x20#8]]).pending
      = .memWrite 0xC0 [0x00#8, 0x00#8, 0x03#8, 0x20#8] :: [] ∧
    decode [0x00#8, 0x00#8, 0x03#8, 0x20#8] = .ok (.padd true true) := by decide
theorem witness_IllegalWordTakesIllegalCommand :
    (waiting [.memWrite 0xC0 (bytes4 0x80000040#32)]).pending = .memWrite 0xC0 (bytes4 0x80000040#32) :: [] ∧
    (fieldsOfWord 0x80000040#32).wellFormed = false ∧ (fieldsOfWord 0x00000110#32).wellFormed = false ∧
    (fieldsOfWord 0x00000221#32).wellFormed = false ∧ (fieldsOfWord 0x00000000#32).wellFormed = false := by decide
theorem witness_IdleBlockStaysAsItIs : State.reset.pending = [] := rfl
theorem witness_StepAnswersExactlyTheLegalTransactions :
    (waiting [.memRead 0xC6 2]).pending = .memRead 0xC6 2 :: [] ∧ (Transaction.memRead 0xC6 2).legal = true ∧
    (waiting [.memRead 0xC5 2]).pending = .memRead 0xC5 2 :: [] ∧ (Transaction.memRead 0xC5 2).legal = false ∧
    (waiting [.memWrite 0x7F [1#8]]).pending = .memWrite 0x7F [1#8] :: [] ∧
    (Transaction.memWrite 0x7F [1#8]).legal = true := by decide
theorem witness_LegalHostProgramNeverStops :
    (waiting [.memWrite 0xC0 [0xFF#8, 0xFF#8, 0xFF#8, 0xFF#8], .memRead 0 192, .reset]).hostLegal = true := by decide

theorem witness_FaddAddsModuloP :
    (regs (valP - 1) 1 0 0).opnd0.toNat < p ∧ (regs (valP - 1) 1 0 0).opnd1.toNat < p ∧
    p ≤ (regs valMax 0 0 0).opnd0.toNat ∧ p ≤ (regs 0 valP 0 0).opnd1.toNat := by decide +kernel
theorem witness_FsubSubtractsModuloP :
    (regs 0 (valP - 1) 0 0).opnd0.toNat < p ∧ (regs 0 (valP - 1) 0 0).opnd1.toNat < p ∧
    p ≤ (regs valP 0 0 0).opnd0.toNat ∧ p ≤ (regs 0 valMax 0 0).opnd1.toNat := by decide +kernel
theorem witness_FmulMultipliesModuloP :
    (regs (valP - 1) (valP - 1) 0 0).opnd0.toNat < p ∧ (regs (valP - 1) (valP - 1) 0 0).opnd1.toNat < p ∧
    p ≤ (regs valP 1 0 0).opnd0.toNat ∧ p ≤ (regs 1 valP 0 0).opnd1.toNat := by decide +kernel
theorem witness_FsqrSquaresModuloP :
    (regs (valP - 1) 0 0 0).opnd0.toNat < p ∧ p ≤ (regs valP 0 0 0).opnd0.toNat := by decide +kernel
theorem witness_FnegNegatesModuloP :
    (regs 0 0 0 0).opnd0.toNat < p ∧ (regs (valP - 1) 0 0 0).opnd0.toNat < p ∧
    p ≤ (regs valP 0 0 0).opnd0.toNat := by decide +kernel
/-- 2 and (p + 1)/2 are inverse to each other (F33). -/
theorem witness_FinvInvertsModuloP :
    (regs 0 0 0 0).opnd0 = 0#256 ∧ 0 < (regs 2 0 0 0).opnd0.toNat ∧ (regs 2 0 0 0).opnd0.toNat < p ∧
    1 ≤ (valP + 1) / 2 ∧ (valP + 1) / 2 < p ∧ ((regs 2 0 0 0).opnd0.toNat * ((valP + 1) / 2)) % p = 1 ∧
    p ≤ (regs valP 0 0 0).opnd0.toNat := by decide +kernel
theorem witness_FeqComparesFieldElements :
    (regs (valP - 1) 0 0 0).opnd0.toNat < p ∧ (regs (valP - 1) 0 0 0).opnd1.toNat < p ∧
    p ≤ (regs valP 0 0 0).opnd0.toNat ∧ p ≤ (regs 1 (valP + 1) 0 0).opnd1.toNat := by decide +kernel
theorem witness_FparGivesTheLowestBit :
    (regs (valP - 1) 0 0 0).opnd0.toNat < p ∧ p ≤ (regs valP 0 0 0).opnd0.toNat := by decide +kernel
theorem witness_FdecChecksTheRange :
    (regs (valP - 1) 0 0 0).opnd0.toNat < p ∧ p ≤ (regs valP 0 0 0).opnd0.toNat := by decide +kernel
theorem witness_FieldResultsAreReduced :
    Instr.fadd ∈ fieldCommands ∧
    (∃ t, exec .fadd (regs (valP - 1) (valP - 1) 0 0) = .next t) ∧
    Instr.feq ∈ fieldCommands ∧ ∃ t, exec .feq (regs 1 1 0 0) = .next t := ⟨by decide, ⟨_, rfl⟩, by decide, _, rfl⟩
theorem witness_FieldLawsHold : 0 < valP - 1 ∧ valP - 1 < p ∧ 0 < p := by decide +kernel

theorem witness_PaddAddsPoints :
    Holds false (regs valGx valGy valGx valNegGy).opnd0 (regs valGx valGy valGx valNegGy).opnd1 G ∧
    Holds false (regs valGx valGy valGx valNegGy).opnd2 (regs valGx valGy valGx valNegGy).opnd3
      (.affine valGx valNegGy) ∧
    FailsWith false (regs valP 0 0 0).opnd0 (regs valP 0 0 0).opnd1 2#4 ∧
    Holds true (regs 0 0 1 1).opnd0 (regs 0 0 1 1).opnd1 .infinity ∧
    FailsWith false (regs 0 0 1 1).opnd2 (regs 0 0 1 1).opnd3 4#4 := by
  simp only [Holds, FailsWith, IsPoint]; decide +kernel
theorem witness_PdblDoublesThePoint :
    Holds false (regs valGx valGy valGx valGy).opnd0 (regs valGx valGy valGx valGy).opnd1 G ∧
    Holds true (regs 1 1 0 0).opnd0 (regs 1 1 0 0).opnd1 .infinity ∧
    FailsWith false (regs 1 1 0 0).opnd0 (regs 1 1 0 0).opnd1 4#4 ∧
    (regs valGx valGy valGx valGy).opnd2 = (regs valGx valGy valGx valGy).opnd0 ∧
    (regs valGx valGy valGx valGy).opnd3 = (regs valGx valGy valGx valGy).opnd1 := by
  simp only [Holds, FailsWith, IsPoint]; decide +kernel
theorem witness_PmulAddsThePointRepeatedly :
    Holds false (regs valGx valGy valMax 0).opnd0 (regs valGx valGy valMax 0).opnd1 G ∧
    FailsWith false (regs 1 1 5 0).opnd0 (regs 1 1 5 0).opnd1 4#4 := by
  simp only [Holds, FailsWith, IsPoint]; decide +kernel
theorem witness_PnegNegatesThePoint :
    IsPoint (regs valGx valNegGy 0 0).opnd0.toNat (regs valGx valNegGy 0 0).opnd1.toNat ∧
    FailsWith false (regs valGx valGx 0 0).opnd0 (regs valGx valGx 0 0).opnd1 4#4 := by
  simp only [FailsWith, IsPoint]; decide +kernel
theorem witness_PeqComparesPoints :
    Holds false (regs valGx valGy valG2x valG2y).opnd0 (regs valGx valGy valG2x valG2y).opnd1 G ∧
    Holds false (regs valGx valGy valG2x valG2y).opnd2 (regs valGx valGy valG2x valG2y).opnd3
      (.affine valG2x valG2y) ∧
    FailsWith false (regs valP 0 0 0).opnd0 (regs valP 0 0 0).opnd1 2#4 ∧
    Holds true (regs 0 0 1 1).opnd0 (regs 0 0 1 1).opnd1 .infinity ∧
    FailsWith false (regs 0 0 1 1).opnd2 (regs 0 0 1 1).opnd3 4#4 := by
  simp only [Holds, FailsWith, IsPoint]; decide +kernel
/-- No point lies above x = 5 (P48). -/
theorem no_point_above_five (y : Nat) : ¬IsPoint 5 y := by
  have := Fact.mk p_prime
  have herr : ∀ P, liftX 5 ≠ .ok P := by
    have h : (match liftX 5 with
      | .ok _ => false
      | .error _ => true) = true := by decide +kernel
    intro P hP
    rw [hP] at h
    cases h
  rintro ⟨hx, hy, hc⟩
  have hv : (Point.affine 5 y).valid = true := (valid_affine 5 y).mpr ⟨hx, hy, by rw [onCurve, decide_eq_true hc]⟩
  rcases Nat.mod_two_eq_zero_or_one y with h | h
  · exact herr _ (liftX_of_even hv h)
  · have hn := (ptNeg_spec hv).1
    have hneg : feNeg y = p - y := by rw [feNeg, Nat.mod_eq_of_lt (by omega)]
    have hodd : p % 2 = 1 := by decide +kernel
    rw [ptNeg, hneg] at hn
    exact herr _ (liftX_of_even hn (by omega))
theorem witness_LiftxFindsTheEvenPoint :
    (IsPoint (regs valGx 0 0 0).opnd0.toNat valGy ∧ valGy % 2 = 0) ∧
    (IsPoint (regs valGx 0 0 0).opnd0.toNat valNegGy ∧ valNegGy % 2 = 1) ∧
    (regs 5 0 0 0).opnd0.toNat < p ∧ (∀ y : Nat, ¬IsPoint (regs 5 0 0 0).opnd0.toNat y) ∧
    p ≤ (regs valP 0 0 0).opnd0.toNat :=
  ⟨by simp only [IsPoint]; decide +kernel, by simp only [IsPoint]; decide +kernel, by decide +kernel, no_point_above_five,
    by decide +kernel⟩
theorem witness_PchkReturnsAValidPoint :
    Holds false (regs valGx valNegGy 0 0).opnd0 (regs valGx valNegGy 0 0).opnd1 (.affine valGx valNegGy) ∧
    Holds true (regs 9 9 0 0).opnd0 (regs 9 9 0 0).opnd1 .infinity ∧
    FailsWith false (regs valP 0 0 0).opnd0 (regs valP 0 0 0).opnd1 2#4 := by
  simp only [Holds, FailsWith, IsPoint]; decide +kernel
theorem witness_OnCurvePredicateAndItsExamples : valP - 1 < p ∧ 0 < p := by decide +kernel
theorem witness_PointsFormACommutativeGroup :
    G.valid = true ∧ (Point.affine valGx valNegGy).valid = true ∧ (Point.affine valG2x valG2y).valid = true ∧
    Point.infinity.valid = true := by decide +kernel
theorem witness_SumOfTwoPointsLiesOnTheChord :
    IsPoint valGx valGy ∧ IsPoint valG2x valG2y ∧ valGx ≠ valG2x := by
  simp only [IsPoint]; decide +kernel
theorem witness_MultiplesOfTheGenerator :
    (Point.affine valG2x valG2y).valid = true ∧ Point.infinity.valid = true ∧
    Holds false (regs valGx valGy n 0).opnd0 (regs valGx valGy n 0).opnd1 G ∧
    Holds false (regs valG2x valG2y valMax 0).opnd0 (regs valG2x valG2y valMax 0).opnd1 (.affine valG2x valG2y) := by
  simp only [Holds, IsPoint]; decide +kernel
theorem witness_Sha256FollowsItsRules :
    [0x61#8, 0x62#8, 0x63#8].length < 2 ^ 61 ∧ (0 : Nat) < 2 ^ 61 ∧
    Nat.Prime 311 ∧ Nat.count Nat.Prime 311 = 63 ∧ Nat.Prime 19 ∧ Nat.count Nat.Prime 19 = 7 := by decide +kernel

theorem witness_VerifyRejectsBadRanges :
    p ≤ (regs 0 0 0 valP).opnd3.toNat ∧ (∀ y : Nat, ¬IsPoint (regs 0 0 0 5).opnd3.toNat y) ∧
    p ≤ (regs 0 valP 0 valGx).opnd1.toNat ∧ n ≤ (regs 0 1 n valGx).opnd2.toNat :=
  ⟨by decide +kernel, no_point_above_five, by decide +kernel, by decide +kernel⟩

/-- The signature of the message 0 with secret key 1 and nonce 1: R and the public key are G. -/
def signedOne : State :=
  regs 0 valGx ((1 + chal (bytes32 (BitVec.ofNat 256 valGx)) (bytes32 (BitVec.ofNat 256 valGx)) (bytes32 0#256) * 1) % n)
    valGx
theorem witness_HonestSignatureVerifies :
    1 < n ∧ ptMul 1 G = .affine signedOne.opnd3.toNat valGy ∧ valGy % 2 = 0 ∧
    ptMul 1 G = .affine signedOne.opnd1.toNat valGy ∧
    signedOne.opnd2.toNat =
      (1 + chal (bytes32 signedOne.opnd1) (bytes32 signedOne.opnd3) (bytes32 signedOne.opnd0) * 1) % n :=
  ⟨by decide +kernel, by decide +kernel, by decide +kernel, by decide +kernel,
    by decide +kernel⟩

theorem witness_ResetTransactionZeroesTheBlock :
    (waiting [.reset, .memRead 0 1]).pending = .reset :: [.memRead 0 1] := rfl
theorem witness_CommandsWriteOnlyResultsAndStatus : (0x7F : Nat) < 0x80 := by decide
theorem witness_ResultDependsOnlyOnOperandsRead :
    (∀ j ∈ readsOf .fsqr, (regs 7 1 1 1).opnd j = (regs 7 2 2 2).opnd j) ∧
    (∃ t, exec .fsqr (regs 7 1 1 1) = .next t) ∧ ∃ t, exec .fsqr (regs 7 2 2 2) = .next t :=
  ⟨by decide, ⟨_, rfl⟩, ⟨_, rfl⟩⟩
/-- The code that a command leaves in ERR. -/
def errAfter (i : Instr) (s : State) : Option (BitVec 4) :=
  match exec i s with
  | .next t => some t.status.err
  | .fault _ => none
  | .refused _ => none
theorem witness_ErrorCodesComeFromTheirCommands :
    errAfter .liftx (regs 5 0 0 0) = some 3#4 ∧ errAfter (.padd false true) (regs 1 1 0 0) = some 4#4 ∧
    errAfter .pgen (regs 1 1 0 0) = some 0#4 := by decide +kernel
theorem witness_ErrorLeavesZeroResults :
    errAfter .fadd (regs valP 0 0 0) = some 2#4 ∧ errAfter .liftx (regs 5 0 0 0) = some 3#4 ∧
    errAfter (.pchk false) (regs 1 1 0 0) = some 4#4 := by decide +kernel
theorem witness_StepKeepsTheBlockConsistent :
    (waiting [.memWrite 0xC0 [0x00#8, 0x00#8, 0x00#8, 0x27#8]]).consistent = true ∧
    (match step (waiting [.memWrite 0xC0 [0x00#8, 0x00#8, 0x00#8, 0x27#8]]) with
      | .next t => t.res1.toNat == valGy
      | .fault _ => false
      | .refused _ => false) = true := by decide +kernel

theorem witness_RegisterSpaceIsBigEndian : (31 : Nat) < 32 ∧ (3 : Nat) < 4 := by decide
theorem witness_ControlWordsReadAsTheirFields : (3 : Nat) < 4 ∧ 0xC8 ≤ 0xC8 := by decide
theorem witness_OperandWriteChangesOnlyItsBytes :
    1 ≤ [1#8].length ∧ 0x7F + [1#8].length ≤ 0x80 ∧ 0 + (List.replicate 128 0#8).length ≤ 0x80 := by decide +kernel
theorem witness_WritesToResultsAndStatusAreIgnored :
    1 ≤ [1#8].length ∧ 0x80 ≤ 0xBF ∧ 0xBF + [1#8].length ≤ 0xC0 ∧ 0xC4 ≤ 0xC7 ∧ 0xC7 + [1#8].length ≤ 0xC8 := by decide
theorem witness_ReadsAnswerTheBytesAndChangeNothing :
    (1 ≤ 192 ∧ 0 + 192 ≤ 0xC0 ∧ 0xBF + 1 ≤ 0xC0) ∧ (0xC0 ≤ 0xC0 ∧ 0xC0 + 4 ≤ 0xC4 ∧ 0xC0 ≤ 0xC3 ∧ 0xC3 + 1 ≤ 0xC4) ∧
    (0xC4 ≤ 0xC4 ∧ 0xC4 + 4 ≤ 0xC8) ∧ (0xC4 ≤ 0xC7 ∧ 0xC7 + 1 ≤ 0xC8) ∧ (0xC4 ≤ 0xC6 ∧ 0xC6 + 2 ≤ 0xC8 ∧ 0xC6 % 2 = 0) := by
  decide
theorem witness_MeaninglessAccessesAreRefused :
    (1 ≤ [1#8].length ∧ 0xC0 ≤ 0xC3 ∧ 0xC3 + [1#8].length ≤ 0xC4 ∧ [1#8].length ≠ 4) ∧
    (0x7F + [1#8, 1#8].length ≤ 0xC8 ∧ 0x7F < 0x80 ∧ 0x80 < 0x7F + [1#8, 1#8].length) ∧
    (0xC3 + 2 ≤ 0xC8 ∧ 0xC3 < 0xC4 ∧ 0xC4 < 0xC3 + 2) ∧
    0xC8 < 0xC8 + [1#8].length ∧ 0xC8 < 0xC8 + 1 := by decide

theorem witness_AdapterComputesRun :
    (2999#64 : Gas) < config.gasCost ∧ config.gasCost ≤ (3000#64 : Gas) ∧ (List.replicate 127 0#8).length ≠ 128 ∧
    (List.replicate 128 0#8).length = 128 := by decide +kernel
theorem witness_InstancesShareNothing :
    (match System.transactAt 1 (.memWrite 0 [1#8]) (System.reset config) with
      | .next sys => sys.blocks.length
      | .fault _ => 0
      | .refused _ => 0) = 2 := by decide +kernel

end Sys2Proof.Tests
end

section
/-! PROOFS. The frame of a settled command (O44), and which operand registers its outcome depends on (O45). -/

namespace Sys2Proof.Machine

open Sys2Proof.Statements

/-! ### What settling a command leaves unchanged, and what it writes -/

@[simp] theorem settle_opnd (o : Except CmdError CmdResult) (s : State) (j : Fin 4) :
    (settle o s).opnd j = s.opnd j := by
  cases o <;> rfl

@[simp] theorem settle_operandBytes (o : Except CmdError CmdResult) (s : State) :
    (settle o s).operandBytes = s.operandBytes := by
  cases o <;> rfl

@[simp] theorem settle_pending (o : Except CmdError CmdResult) (s : State) : (settle o s).pending = s.pending := by
  cases o <;> rfl

@[simp] theorem settle_answer (o : Except CmdError CmdResult) (s : State) : (settle o s).answer = s.answer := by
  cases o <;> rfl

@[simp] theorem settle_status_done (o : Except CmdError CmdResult) (s : State) : (settle o s).status.done = true := by
  cases o <;> rfl

/-- The host reads the operand buffer as before. -/
theorem readByte_settle_operand (o : Except CmdError CmdResult) (s : State) {a : Nat} (h : a < 0x80) :
    (settle o s).readByte a = s.readByte a := by
  rw [readByte_operand _ _ h, readByte_operand _ _ h, settle_operandBytes]

/-- The results and STATUS come from the outcome alone, whatever the state was (R92). -/
theorem settle_sameResult (o : Except CmdError CmdResult) (s s' : State) : SameResult (settle o s) (settle o s') := by
  cases o <;> exact ⟨rfl, rfl, rfl⟩

/-! ### The outcome of a command as a function of the operand registers it reads -/

section
variable {s s' : State}

/-- A point operand depends on the registers that `pointReads` names: with its flag set, on none (R82). -/
theorem decPt_opnd_congr {inf : Bool} {i k : Fin 4} (h : ∀ j ∈ pointReads inf i k, s.opnd j = s'.opnd j) :
    decPt inf (s.opnd i) (s.opnd k) = decPt inf (s'.opnd i) (s'.opnd k) := by
  cases inf with
  | true => rfl
  | false => rw [h i (by simp [pointReads]), h k (by simp [pointReads])]

theorem decPtA_congr {ia : Bool} (h : ∀ j ∈ pointReads ia 0 1, s.opnd j = s'.opnd j) :
    decPtA ia s = decPtA ia s' :=
  decPt_opnd_congr h

theorem decPtB_congr {ib : Bool} (h : ∀ j ∈ pointReads ib 2 3, s.opnd j = s'.opnd j) :
    decPtB ib s = decPtB ib s' :=
  decPt_opnd_congr h

/-- In two states that agree on the operand registers a command reads, it settles one and the same outcome (R32): the
refinement of `exec_settles` that the column "reads" of R90 gives. -/
theorem exec_settles_same_outcome {i : Instr} (h : ∀ j ∈ readsOf i, s.opnd j = s'.opnd j) :
    ∃ o, exec i s = .next (settle o s) ∧ exec i s' = .next (settle o s') := by
  cases i with
  | fadd | fsub | fmul | feq =>
    have h0 : s.opnd0 = s'.opnd0 := h 0 (by decide)
    have h1 : s.opnd1 = s'.opnd1 := h 1 (by decide)
    exact ⟨_, rfl, by rw [h0, h1]; rfl⟩
  | fsqr | fneg | finv | fpar | fdec | liftx =>
    have h0 : s.opnd0 = s'.opnd0 := h 0 (by decide)
    exact ⟨_, rfl, by rw [h0]; rfl⟩
  | padd ia ib | peq ia ib =>
    obtain ⟨hA, hB⟩ := List.forall_mem_append.mp h
    exact ⟨_, rfl, by rw [decPtA_congr hA, decPtB_congr hB]; rfl⟩
  | pdbl ia | pneg ia | pchk ia =>
    exact ⟨_, rfl, by rw [decPtA_congr h]; rfl⟩
  | pmul ia =>
    obtain ⟨hA, hk⟩ := List.forall_mem_append.mp h
    have h2 : s.opnd2 = s'.opnd2 := hk 2 (by decide)
    exact ⟨_, rfl, by rw [decPtA_congr hA, h2]; rfl⟩
  | pgen => exact ⟨_, rfl, rfl⟩
  | thash | chal =>
    have h0 : s.opnd0 = s'.opnd0 := h 0 (by decide)
    have h1 : s.opnd1 = s'.opnd1 := h 1 (by decide)
    have h2 : s.opnd2 = s'.opnd2 := h 2 (by decide)
    exact ⟨_, rfl, by rw [h0, h1, h2]; rfl⟩
  | verify =>
    have h0 : s.opnd0 = s'.opnd0 := h 0 (by decide)
    have h1 : s.opnd1 = s'.opnd1 := h 1 (by decide)
    have h2 : s.opnd2 = s'.opnd2 := h 2 (by decide)
    have h3 : s.opnd3 = s'.opnd3 := h 3 (by decide)
    exact ⟨_, rfl, by rw [h0, h1, h2, h3]; rfl⟩

end

end Sys2Proof.Machine

namespace Sys2Proof.Statements

open Sys2Proof.Machine

/-- Settles O44: every command settles some outcome, and settling writes only the results and STATUS. -/
theorem commandsWriteOnlyResultsAndStatus : Obligations.CommandsWriteOnlyResultsAndStatus := by
  intro i s
  obtain ⟨o, ho⟩ := exec_settles i s
  exact ⟨settle o s, ho, settle_status_done o s, settle_opnd o s, fun _ ha => readByte_settle_operand o s ha,
    settle_pending o s, settle_answer o s⟩

/-- Settles O45: both states settle the same outcome, and the outcome alone gives the results and STATUS. -/
theorem resultDependsOnlyOnOperandsRead : Obligations.ResultDependsOnlyOnOperandsRead := by
  intro i s s' t t' h ht ht'
  obtain ⟨o, ho, ho'⟩ := exec_settles_same_outcome h
  obtain rfl : settle o s = t := Host.Outcome.next.inj (ho.symm.trans ht)
  obtain rfl : settle o s' = t' := Host.Outcome.next.inj (ho'.symm.trans ht')
  exact settle_sameResult o s s'

end Sys2Proof.Statements
end

section
/-! PROOFS. The register space and the command word are big-endian (O51). -/

namespace Sys2Proof.Machine

/-! ### The bytes of a word as bit fields of it -/

/-- Byte `j` of the big-endian bytes of a bit vector, as the bit field that R52 names. -/
theorem bytesOfNat_toNat_getElem? {w : Nat} (v : BitVec w) (k j : Nat) (h : j < k) :
    (bytesOfNat k v.toNat)[j]? = some (v.extractLsb' (8 * (k - 1 - j)) 8) := by
  rw [bytesOfNat_getElem? _ _ _ h]
  congr 1
  apply BitVec.eq_of_toNat_eq
  rw [BitVec.toNat_ofNat, BitVec.extractLsb'_toNat, Nat.shiftRight_eq_div_pow, pow_mul]
  rfl

theorem bytes32_getElem? (r : Reg) {j : Nat} (h : j < 32) :
    (bytes32 r)[j]? = some (r.extractLsb' (8 * (31 - j)) 8) :=
  bytesOfNat_toNat_getElem? r 32 j h

theorem bytes4_getElem? (w : Word32) {j : Nat} (h : j < 4) :
    (bytes4 w)[j]? = some (w.extractLsb' (8 * (3 - j)) 8) :=
  bytesOfNat_toNat_getElem? w 4 j h

/-- Four bytes, the most significant first, make the word that is their concatenation. -/
theorem word32OfBytes_four (b0 b1 b2 b3 : Byte) : word32OfBytes [b0, b1, b2, b3] = b0 ++ b1 ++ b2 ++ b3 :=
  word32OfBytes_take_drop [b0, b1, b2, b3] (i := 0) le_rfl

/-! ### Where each register's bytes stand in the register space -/

/-- Operand register `i` takes up the 32 bytes from 0x20 · i on. -/
theorem readByte_opnd (s : State) (i : Fin 4) {j : Nat} (h : j < 32) :
    s.readByte (0x20 * i.val + j) = (bytes32 (s.opnd i))[j]? := by
  rw [readByte_operand _ _ (by omega), Nat.add_comm]
  match i with
  | 0 | 1 | 2 | 3 => simp [State.operandBytes, List.getElem?_append, h]

theorem readByte_res0 (s : State) {j : Nat} (h : j < 32) : s.readByte (0x80 + j) = (bytes32 s.res0)[j]? := by
  rw [readByte_result _ _ (by omega) (by omega), Nat.add_sub_cancel_left, State.resultBytes,
    List.getElem?_append_left (by simpa using h)]

theorem readByte_res1 (s : State) {j : Nat} (h : j < 32) : s.readByte (0xA0 + j) = (bytes32 s.res1)[j]? := by
  rw [readByte_result _ _ (by omega) (by omega), State.resultBytes, List.getElem?_append_right (by simp; omega),
    bytes32_length, Nat.sub_sub, Nat.add_sub_cancel_left]

end Sys2Proof.Machine

namespace Sys2Proof.Statements

open Sys2Proof.Machine

/-- Settles O51: each register stands in the register space as its own big-endian bytes, and each of those bytes is a bit
field of it; a command word is the concatenation of the bytes written. -/
theorem registerSpaceIsBigEndian : Obligations.RegisterSpaceIsBigEndian := by
  refine ⟨fun s i j h => ?_, fun s j h => ⟨?_, ?_⟩, fun s j h => ?_, fun b0 b1 b2 b3 => ?_⟩
  · rw [readByte_opnd s i h, bytes32_getElem? _ h]
  · rw [readByte_res0 s h, bytes32_getElem? _ h]
  · rw [readByte_res1 s h, bytes32_getElem? _ h]
  · rw [readByte_status s _ (by omega), Nat.add_sub_cancel_left, bytes4_getElem? _ h]
  · rw [← word32OfBytes_four]; rfl

end Sys2Proof.Statements
end

section
/-! PROOFS. The FieldElement commands (O12 to O20): one rule for the commands with one operand, one for those with two, and
what each command's function of its operands is. -/

namespace Sys2Proof.Machine

open Sys2Proof.Statements

/-! ### The three shapes of a next state -/

theorem complete_value (s : State) (v : Nat) : complete { r0 := v } s = valueState s v := rfl

theorem complete_encBool (s : State) (b : Bool) : complete (encBool b) s = boolState s b := by
  cases b <;> rfl

theorem raiseError_outOfRange (s : State) : raiseError .outOfRangeError s = errorState s 2#4 := rfl

/-- A reduced number can be read back from the state that it gives. -/
theorem valueState_inj {s : State} {v w : Nat} (hv : v < p) (hw : w < p) :
    valueState s v = valueState s w ↔ v = w := by
  refine ⟨fun h => ?_, fun h => h ▸ rfl⟩
  have hres : (BitVec.ofNat 256 v).toNat = (BitVec.ofNat 256 w).toNat :=
    congrArg (fun t : State => t.res0.toNat) h
  rwa [toNat_ofNat_of_lt hv, toNat_ofNat_of_lt hw] at hres

/-- A command that returned a number and one that failed differ in ERR. -/
theorem valueState_ne_outOfRange (s : State) (v : Nat) : valueState s v ≠ errorState s 2#4 := by
  intro h
  have herr : 0#4 = 2#4 := congrArg (fun t : State => t.status.err) h
  exact absurd herr (by decide)

/-! ### Commands on one and on two FieldElements -/

/-- The command computes `f` of the FieldElement in opnd[0]. -/
def OnOneFE (i : Instr) (f : Nat → CmdResult) : Prop :=
  ∀ s : State, exec i s = .next (settle (do let a ← decFE s.opnd0; .ok (f a)) s)

/-- The command computes `f` of the FieldElements in opnd[0] and opnd[1]. -/
def OnTwoFE (i : Instr) (f : Nat → Nat → CmdResult) : Prop :=
  ∀ s : State, exec i s = .next (settle (do let a ← decFE s.opnd0; let b ← decFE s.opnd1; .ok (f a b)) s)

theorem onTwoFE_fadd : OnTwoFE .fadd fun a b => { r0 := feAdd a b } := fun _ => rfl
theorem onTwoFE_fsub : OnTwoFE .fsub fun a b => { r0 := feSub a b } := fun _ => rfl
theorem onTwoFE_fmul : OnTwoFE .fmul fun a b => { r0 := feMul a b } := fun _ => rfl
theorem onOneFE_fsqr : OnOneFE .fsqr fun a => { r0 := feSqr a } := fun _ => rfl
theorem onOneFE_fneg : OnOneFE .fneg fun a => { r0 := feNeg a } := fun _ => rfl
theorem onOneFE_finv : OnOneFE .finv fun a => { r0 := feInv a } := fun _ => rfl
theorem onTwoFE_feq : OnTwoFE .feq fun a b => encBool (feEq a b) := fun _ => rfl
theorem onOneFE_fpar : OnOneFE .fpar fun a => encBool (decide (fePar a = 1)) := fun _ => rfl
theorem onOneFE_fdec : OnOneFE .fdec fun a => { r0 := a } := fun _ => rfl

section
variable {i : Instr} {s : State}

theorem OnOneFE.exec_of_lt {f : Nat → CmdResult} (hi : OnOneFE i f) (h : s.opnd0.toNat < p) :
    exec i s = .next (complete (f s.opnd0.toNat) s) := by
  rw [hi s, decFE_ok h, ok_bind, settle_ok]

theorem OnOneFE.exec_of_le {f : Nat → CmdResult} (hi : OnOneFE i f) (h : p ≤ s.opnd0.toNat) :
    exec i s = .next (errorState s 2#4) := by
  rw [hi s, decFE_error h, error_bind, settle_error, raiseError_outOfRange]

theorem OnTwoFE.exec_of_lt {f : Nat → Nat → CmdResult} (hi : OnTwoFE i f) (h0 : s.opnd0.toNat < p)
    (h1 : s.opnd1.toNat < p) : exec i s = .next (complete (f s.opnd0.toNat s.opnd1.toNat) s) := by
  rw [hi s, decFE_ok h0, decFE_ok h1, ok_bind, ok_bind, settle_ok]

/-- Both operands fail with the same error, so which of them is out of range cannot be seen. -/
theorem OnTwoFE.exec_of_le {f : Nat → Nat → CmdResult} (hi : OnTwoFE i f)
    (h : p ≤ s.opnd0.toNat ∨ p ≤ s.opnd1.toNat) : exec i s = .next (errorState s 2#4) := by
  rw [hi s, ← raiseError_outOfRange]
  rcases decFE_cases s.opnd0 with ⟨h0, e0⟩ | ⟨-, e0⟩
  · have h1 : p ≤ s.opnd1.toNat := h.resolve_left (Nat.not_le.mpr h0)
    rw [e0, ok_bind, decFE_error h1, error_bind, settle_error]
  · rw [e0, error_bind, settle_error]

theorem exec_finv_of_lt (h : s.opnd0.toNat < p) : exec .finv s = .next (valueState s (feInv s.opnd0.toNat)) :=
  onOneFE_finv.exec_of_lt h

theorem exec_fdec_of_lt (h : s.opnd0.toNat < p) : exec .fdec s = .next (valueState s s.opnd0.toNat) :=
  onOneFE_fdec.exec_of_lt h

end

/-! ### The field functions as the rules state them -/

/-- R123: the integer difference, reduced. -/
theorem feSub_eq_toNat {a b : Nat} (hb : b ≤ p) : feSub a b = (((a : Int) - b) % p).toNat := by
  rw [← feSub_int hb, Int.toNat_natCast]

/-- R126: −0 is 0 and not p. -/
theorem feNeg_eq_ite (a : Nat) : feNeg a = if a = 0 then 0 else p - a := by
  split
  next h => rw [feNeg, h, Nat.sub_zero, Nat.mod_self]
  next h => exact Nat.mod_eq_of_lt (Nat.sub_lt p_pos (Nat.pos_of_ne_zero h))

/-- R129: the parity is the lowest bit of the register. -/
theorem fePar_toNat (v : Reg) : decide (fePar v.toNat = 1) = v.getLsbD 0 := by
  rw [BitVec.getLsbD, Nat.testBit_zero, fePar]

/-- R128: FieldElements are equal when their registers are. -/
theorem feEq_toNat (v w : Reg) : feEq v.toNat w.toNat = decide (v = w) :=
  decide_eq_decide.mpr BitVec.toNat_inj

theorem feInv_zero : feInv 0 = 0 := by
  have : Fact p.Prime := ⟨p_prime⟩
  apply cast_inj (feInv_lt 0) p_pos
  rw [cast_feInv, Nat.cast_zero, inv_zero]

/-- R127: the inverse of a nonzero FieldElement is the one FieldElement whose product with it is 1. In the field of p
elements, where `feInv` is the inverse, both sides say a · b = 1. -/
theorem feMul_eq_one_iff {a b : Nat} (ha0 : 0 < a) (ha : a < p) (hb : b < p) : feMul a b = 1 ↔ feInv a = b := by
  have : Fact p.Prime := ⟨p_prime⟩
  have ha' : (a : ZMod p) ≠ 0 := cast_ne_zero_of_lt ha0 ha
  calc feMul a b = 1
      ↔ (a : ZMod p) * b = 1 :=
        ⟨fun h => by rw [← cast_feMul, h, Nat.cast_one],
          fun h => cast_inj (feMul_lt a b) p_prime.one_lt (by rw [cast_feMul, h, Nat.cast_one])⟩
    _ ↔ (a : ZMod p)⁻¹ = b := mul_eq_one_iff_inv_eq₀ ha'
    _ ↔ feInv a = b :=
        ⟨fun h => cast_inj (feInv_lt a) hb (by rw [cast_feInv, h]), fun h => by rw [← h, cast_feInv]⟩

end Sys2Proof.Machine

namespace Sys2Proof.Statements

open Sys2Proof.Machine

/-- Settles O13: the model's difference, computed with p − b, is the integer difference modulo p. -/
theorem fsubSubtractsModuloP : Obligations.FsubSubtractsModuloP := by
  refine ⟨by decide, fun s => ⟨fun h0 h1 => ?_, onTwoFE_fsub.exec_of_le⟩⟩
  rw [onTwoFE_fsub.exec_of_lt h0 h1, complete_value, feSub_eq_toNat h1.le]

/-- Settles O17: the power is the inverse in the field of p elements, and the field has one inverse of each nonzero
element; zero is its own. -/
theorem finvInvertsModuloP : Obligations.FinvInvertsModuloP := by
  refine ⟨by decide, fun s => ⟨fun h => ?_, fun h0 => ?_, fun b ha0 ha _ hb => ?_, onOneFE_finv.exec_of_le⟩⟩
  · rw [exec_finv_of_lt h, feInv_eq]
  · have hz : s.opnd0.toNat = 0 := congrArg BitVec.toNat h0
    rw [exec_finv_of_lt (hz ▸ p_pos), hz, feInv_zero]
  · rw [exec_finv_of_lt ha, Host.Outcome.next.injEq, valueState_inj (feInv_lt _) hb]
    exact feMul_eq_one_iff ha0 ha hb

/-- Settles O12: both operands decode, and `feAdd` is the sum modulo p. -/
theorem faddAddsModuloP : Obligations.FaddAddsModuloP := by
  refine ⟨by decide, fun s => ⟨fun h0 h1 => ?_, onTwoFE_fadd.exec_of_le⟩⟩
  rw [onTwoFE_fadd.exec_of_lt h0 h1, complete_value, feAdd]

/-- Settles O14: both operands decode, and `feMul` reduces the full product. -/
theorem fmulMultipliesModuloP : Obligations.FmulMultipliesModuloP := by
  refine ⟨by decide, fun s => ⟨fun h0 h1 => ?_, onTwoFE_fmul.exec_of_le⟩⟩
  rw [onTwoFE_fmul.exec_of_lt h0 h1, complete_value, feMul]

/-- Settles O15: only opnd[0] is decoded. -/
theorem fsqrSquaresModuloP : Obligations.FsqrSquaresModuloP := by
  refine ⟨by decide, fun s => ⟨fun h => ?_, onOneFE_fsqr.exec_of_le⟩⟩
  rw [onOneFE_fsqr.exec_of_lt h, complete_value, feSqr]

/-- Settles O16: the reduction in `feNeg` acts at 0 only. -/
theorem fnegNegatesModuloP : Obligations.FnegNegatesModuloP := by
  refine ⟨by decide, fun s => ⟨fun h => ?_, onOneFE_fneg.exec_of_le⟩⟩
  rw [onOneFE_fneg.exec_of_lt h, complete_value, feNeg_eq_ite]

/-- Settles O18: comparing the numbers is comparing the registers. -/
theorem feqComparesFieldElements : Obligations.FeqComparesFieldElements := by
  refine ⟨by decide, fun s => ⟨fun h0 h1 => ?_, onTwoFE_feq.exec_of_le⟩⟩
  rw [onTwoFE_feq.exec_of_lt h0 h1, complete_encBool, feEq_toNat]

/-- Settles O19: the parity of the number is the register's lowest bit. -/
theorem fparGivesTheLowestBit : Obligations.FparGivesTheLowestBit := by
  refine ⟨by decide, fun s => ⟨fun h => ?_, onOneFE_fpar.exec_of_le⟩⟩
  rw [onOneFE_fpar.exec_of_lt h, complete_encBool, fePar_toNat]

/-- Settles O20: below p the command returns, and a state that a command returned is not the error outcome. -/
theorem fdecChecksTheRange : Obligations.FdecChecksTheRange := by
  refine ⟨by decide, fun s => ⟨exec_fdec_of_lt, fun herr => ?_, onOneFE_fdec.exec_of_le⟩⟩
  by_contra hlt
  have hval := (exec_fdec_of_lt (Nat.not_le.mp hlt)).symm.trans herr
  exact valueState_ne_outOfRange s _ (Host.Outcome.next.inj hval)

end Sys2Proof.Statements
end

section
/-! PROOFS. The CurvePoint commands other than PMUL (O23, O24, O26 to O31): one rule for a point operand that decodes, one
for one that fails, and what each command's function of its points is. -/

namespace Sys2Proof.Machine

open Sys2Proof.Statements

/-! ### The two shapes of a next state -/

theorem complete_encPt (s : State) (P : Point) : complete (encPt P) s = pointState s P := by
  cases P <;> rfl

theorem raiseError_eq_errorState (e : CmdError) (s : State) : raiseError e s = errorState s e.code := rfl

theorem pointState_status_err (s : State) (P : Point) : (pointState s P).status.err = 0#4 := by
  cases P <;> rfl

/-- A command that returned a point and one that failed with InvalidXCoordinateError differ in ERR. -/
theorem pointState_ne_invalidX (s : State) (P : Point) : pointState s P ≠ errorState s 3#4 := by
  intro h
  have herr : 0#4 = 3#4 := pointState_status_err s P ▸ congrArg (fun t : State => t.status.err) h
  exact absurd herr (by decide)

/-! ### A point operand -/

section
variable {inf : Bool} {vx vy : Reg} {P : Point} {c : BitVec 4}

/-- R82: the operand that the registers hold is the point that is decoded. -/
theorem decPt_of_holds (h : Holds inf vx vy P) : decPt inf vx vy = .ok P := by
  rcases h with ⟨rfl, rfl⟩ | ⟨rfl, ⟨hx, hy, hc⟩, rfl⟩
  · exact decPt_infinity vx vy
  · simp [decPt, decFE_ok hx, decFE_ok hy, onCurve, hc]

/-- R82, R93: an operand that is no point is refused with the code of the first check that it fails. -/
theorem decPt_of_failsWith (h : FailsWith inf vx vy c) : ∃ e : CmdError, e.code = c ∧ decPt inf vx vy = .error e := by
  rcases h with ⟨rfl, hrange, rfl⟩ | ⟨rfl, hx, hy, hc, rfl⟩
  · refine ⟨.outOfRangeError, rfl, ?_⟩
    rcases decPt_cases vx vy with ⟨hx, hy, -⟩ | ⟨-, e⟩ | ⟨hx, hy, -⟩
    · omega
    · exact e
    · omega
  · exact ⟨.notOnCurveError, rfl, by simp [decPt, decFE_ok hx, decFE_ok hy, onCurve, hc]⟩

/-- A command whose point operand decodes goes on with the point. -/
theorem settle_decPt_of_holds (h : Holds inf vx vy P) (k : Point → Except CmdError CmdResult) (s : State) :
    settle (decPt inf vx vy >>= k) s = settle (k P) s := by
  rw [decPt_of_holds h, ok_bind]

/-- A command whose point operand fails ends there, whatever it would have gone on with. -/
theorem settle_decPt_of_failsWith (h : FailsWith inf vx vy c) (k : Point → Except CmdError CmdResult) (s : State) :
    settle (decPt inf vx vy >>= k) s = errorState s c := by
  obtain ⟨e, rfl, he⟩ := decPt_of_failsWith h
  rw [he, error_bind, settle_error, raiseError_eq_errorState]

end

/-! ### What each command does with its operands -/

theorem exec_padd (ia ib : Bool) (s : State) :
    exec (.padd ia ib) s = .next (settle (decPt ia s.opnd0 s.opnd1 >>= fun P =>
      decPt ib s.opnd2 s.opnd3 >>= fun Q => .ok (encPt (ptAdd P Q))) s) := rfl

theorem exec_pdbl (ia : Bool) (s : State) :
    exec (.pdbl ia) s = .next (settle (decPt ia s.opnd0 s.opnd1 >>= fun P => .ok (encPt (ptDbl P))) s) := rfl

theorem exec_pneg (ia : Bool) (s : State) :
    exec (.pneg ia) s = .next (settle (decPt ia s.opnd0 s.opnd1 >>= fun P => .ok (encPt (ptNeg P))) s) := rfl

theorem exec_peq (ia ib : Bool) (s : State) :
    exec (.peq ia ib) s = .next (settle (decPt ia s.opnd0 s.opnd1 >>= fun P =>
      decPt ib s.opnd2 s.opnd3 >>= fun Q => .ok (encBool (ptEq P Q))) s) := rfl

theorem exec_pchk (ia : Bool) (s : State) :
    exec (.pchk ia) s = .next (settle (decPt ia s.opnd0 s.opnd1 >>= fun P => .ok (encPt P)) s) := rfl

theorem exec_pgen (s : State) : exec .pgen s = .next (settle (.ok (encPt G)) s) := rfl

theorem exec_liftx (s : State) :
    exec .liftx s = .next (settle (decFE s.opnd0 >>= fun x => liftX x >>= fun P => .ok (encPt P)) s) := rfl

/-! ### Points of the curve by their coordinates -/

section
variable {x y : Nat}

theorem valid_affine_iff_isPoint : (Point.affine x y).valid = true ↔ IsPoint x y := by
  rw [valid_affine, onCurve, decide_eq_true_iff, IsPoint]

/-- R153: the curve equation between natural numbers modulo p is the one between integers. -/
theorem onCurve_iff_int (x y : Nat) :
    onCurve x y = true ↔ ((y : Int) * y - x * x * x - 7) % (p : Int) = 0 := by
  calc onCurve x y = true
      ↔ x * x * x + 7 ≡ y * y [MOD p] := by rw [onCurve, decide_eq_true_iff]; exact eq_comm
    _ ↔ (p : Int) ∣ ((y * y : Nat) : Int) - ((x * x * x + 7 : Nat) : Int) := Nat.modEq_iff_dvd
    _ ↔ ((y : Int) * y - x * x * x - 7) % (p : Int) = 0 := by
      rw [Int.dvd_iff_emod_eq_zero]; push_cast; rw [sub_sub]

/-- No point has y = 0: −7 is no cube (R153). -/
theorem onCurve_zero_right (x : Nat) : onCurve x 0 = false := by
  have : Fact p.Prime := ⟨p_prime⟩
  rw [Bool.eq_false_iff, Ne, onCurve_iff, Nat.cast_zero]
  intro h
  exact cube_ne_neg_seven (x : ZMod p) (by linear_combination -h)

theorem isPoint_y_pos (h : IsPoint x y) : 0 < y := by
  obtain ⟨-, -, hc⟩ := (valid_affine x y).mp (valid_affine_iff_isPoint.mpr h)
  rw [Nat.pos_iff_ne_zero]
  rintro rfl
  rw [onCurve_zero_right] at hc
  exact absurd hc (by decide)

theorem p_odd : p % 2 = 1 := by decide +kernel

/-- The negative of a finite point has the coordinate p − y, which is reduced because y is not 0 (R154). -/
theorem ptNeg_of_isPoint (h : IsPoint x y) : ptNeg (.affine x y) = .affine x (p - y) := by
  rw [ptNeg, feNeg_eq_ite, if_neg (isPoint_y_pos h).ne']

theorem isPoint_neg (h : IsPoint x y) : IsPoint x (p - y) := by
  have : Fact p.Prime := ⟨p_prime⟩
  have hneg := (ptNeg_spec (valid_affine_iff_isPoint.mpr h)).1
  rwa [ptNeg_of_isPoint h, valid_affine_iff_isPoint] at hneg

/-- R168: the parity of y flips, for p is odd. -/
theorem isPoint_neg_parity (h : IsPoint x y) : (p - y) % 2 ≠ y % 2 := by
  obtain ⟨-, hy, -⟩ := h
  have := p_odd
  omega

/-! ### Doubling and equality of points -/

/-- R156: the sum of equal points is the double. -/
theorem ptAdd_self (P : Point) : ptAdd P P = ptDbl P := by
  cases P with
  | infinity => rfl
  | affine x y => rw [ptAdd, if_pos ⟨rfl, rfl⟩]

/-- The double of a point is O only for O: the tangent at a finite point is not vertical, since y is not 0 (R166). -/
theorem ptDbl_of_isPoint_ne_infinity (h : IsPoint x y) : ptDbl (.affine x y) ≠ .infinity := by
  rw [ptDbl, if_neg (isPoint_y_pos h).ne']
  nofun

theorem ptDbl_eq_infinity_iff {inf : Bool} {vx vy : Reg} {P : Point} (h : Holds inf vx vy P) :
    ptDbl P = .infinity ↔ P = .infinity := by
  rcases h with ⟨-, rfl⟩ | ⟨-, hP, rfl⟩
  · exact iff_of_true rfl rfl
  · exact iff_of_false (ptDbl_of_isPoint_ne_infinity hP) nofun

theorem ptEq_eq_decide (P Q : Point) : ptEq P Q = decide (P = Q) := by
  cases P <;> cases Q <;> simp [ptEq]

/-! ### The point above x with even y -/

theorem liftX_of_isPoint_even (h : IsPoint x y) (hy : y % 2 = 0) : liftX x = .ok (.affine x y) := by
  have : Fact p.Prime := ⟨p_prime⟩
  exact liftX_of_even (valid_affine_iff_isPoint.mpr h) hy

theorem liftX_of_isPoint_odd (h : IsPoint x y) (hy : y % 2 = 1) : liftX x = .ok (.affine x (p - y)) := by
  have hpar := isPoint_neg_parity h
  exact liftX_of_isPoint_even (isPoint_neg h) (by omega)

/-- R159: `lift_x` fails exactly when no point lies above x. -/
theorem liftX_eq_error_iff (hx : x < p) :
    liftX x = .error .invalidXCoordinateError ↔ ∀ y, ¬IsPoint x y := by
  have : Fact p.Prime := ⟨p_prime⟩
  constructor
  · intro herr y h
    rcases Nat.mod_two_eq_zero_or_one y with hy | hy
    · rw [liftX_of_isPoint_even h hy] at herr; cases herr
    · rw [liftX_of_isPoint_odd h hy] at herr; cases herr
  · intro hnone
    refine (liftX_cases x).resolve_left ?_
    rintro ⟨P, hP⟩
    obtain ⟨y, -, hv, -⟩ := liftX_ok hx hP
    exact hnone y (valid_affine_iff_isPoint.mp hv)

/-- No point has x = 0: 7 is no square, and the square root algorithm finds none (R153). -/
theorem not_isPoint_zero (y : Nat) : ¬IsPoint 0 y :=
  (liftX_eq_error_iff p_pos).mp (by decide +kernel) y

theorem onCurve_zero_left (hy : y < p) : onCurve 0 y = false := by
  rw [Bool.eq_false_iff]
  exact fun hc => not_isPoint_zero y (valid_affine_iff_isPoint.mp ((valid_affine 0 y).mpr ⟨p_pos, hy, hc⟩))

variable {s : State}

theorem exec_liftx_of_ok {P : Point} (hx : s.opnd0.toNat < p) (h : liftX s.opnd0.toNat = .ok P) :
    exec .liftx s = .next (pointState s P) := by
  rw [exec_liftx, decFE_ok hx, ok_bind, h, ok_bind, settle_ok, complete_encPt]

theorem exec_liftx_eq_invalidX_iff (hx : s.opnd0.toNat < p) :
    exec .liftx s = .next (errorState s 3#4) ↔ liftX s.opnd0.toNat = .error .invalidXCoordinateError := by
  rcases liftX_cases s.opnd0.toNat with ⟨P, h⟩ | h
  · rw [exec_liftx_of_ok hx h, h, Host.Outcome.next.injEq]
    exact iff_of_false (pointState_ne_invalidX s P) nofun
  · refine iff_of_true ?_ h
    rw [exec_liftx, decFE_ok hx, ok_bind, h, error_bind, settle_error, raiseError_eq_errorState, CmdError.code]

end

end Sys2Proof.Machine

namespace Sys2Proof.Statements

open Sys2Proof.Machine

/-- Settles O23: the operands are decoded in order, and the first that fails ends the command. -/
theorem paddAddsPoints : Obligations.PaddAddsPoints := by
  refine ⟨by decide, fun s ia ib P Q c => ⟨fun hP hQ => ?_, fun hA => ?_, fun hP hB => ?_⟩⟩
  · rw [exec_padd, settle_decPt_of_holds hP, settle_decPt_of_holds hQ, settle_ok, complete_encPt]
  · rw [exec_padd, settle_decPt_of_failsWith hA]
  · rw [exec_padd, settle_decPt_of_holds hP, settle_decPt_of_failsWith hB]

/-- Settles O24: no point has y = 0, so no tangent is vertical; with equal operands PADD decodes the same point twice. -/
theorem pdblDoublesThePoint : Obligations.PdblDoublesThePoint := by
  refine ⟨by decide, fun s ia P c => ⟨fun hP => ?_, ptDbl_eq_infinity_iff, fun hA => ?_, fun h2 h3 => ?_⟩⟩
  · rw [exec_pdbl, settle_decPt_of_holds hP, settle_ok, complete_encPt]
  · rw [exec_pdbl, settle_decPt_of_failsWith hA]
  · rw [exec_padd, exec_pdbl, h2, h3]
    cases decPt ia s.opnd0 s.opnd1 with
    | error e => rfl
    | ok R => rw [ok_bind, ok_bind, ok_bind, ptAdd_self]

/-- Settles O26: y is not 0, so p − y is reduced, and its parity is the other one because p is odd. -/
theorem pnegNegatesThePoint : Obligations.PnegNegatesThePoint := by
  refine ⟨by decide, fun s ia c => ⟨?_, ?_, fun hA => ?_⟩⟩
  · rintro rfl
    rw [exec_pneg, settle_decPt_of_holds (.inl ⟨rfl, rfl⟩), settle_ok, ptNeg, complete_encPt]
  · rintro rfl hP
    refine ⟨?_, Nat.sub_lt p_pos (isPoint_y_pos hP), isPoint_neg_parity hP⟩
    rw [exec_pneg, settle_decPt_of_holds (.inr ⟨rfl, hP, rfl⟩), settle_ok, ptNeg_of_isPoint hP, complete_encPt]
  · rw [exec_pneg, settle_decPt_of_failsWith hA]

/-- Settles O27: the comparison by coordinates is equality of points. -/
theorem peqComparesPoints : Obligations.PeqComparesPoints := by
  refine ⟨by decide, fun s ia ib P Q c => ⟨fun hP hQ => ?_, fun hA => ?_, fun hP hB => ?_⟩⟩
  · rw [exec_peq, settle_decPt_of_holds hP, settle_decPt_of_holds hQ, settle_ok, complete_encBool, ptEq_eq_decide]
  · rw [exec_peq, settle_decPt_of_failsWith hA]
  · rw [exec_peq, settle_decPt_of_holds hP, settle_decPt_of_failsWith hB]

/-- Settles O28: with the point above x of odd y comes its negative, of even y, and `lift_x` finds the even one. -/
theorem liftxFindsTheEvenPoint : Obligations.LiftxFindsTheEvenPoint := by
  refine ⟨by decide, fun s => ⟨fun y h hy => ?_, fun y h hy => ?_, fun hx => ?_, fun hx => ?_⟩⟩
  · exact exec_liftx_of_ok h.1 (liftX_of_isPoint_even h hy)
  · exact exec_liftx_of_ok h.1 (liftX_of_isPoint_odd h hy)
  · rw [exec_liftx_eq_invalidX_iff hx, liftX_eq_error_iff hx]
  · rw [exec_liftx, decFE_error hx, error_bind, settle_error, raiseError_outOfRange]

/-- Settles O29: the decoded point is encoded again. -/
theorem pchkReturnsAValidPoint : Obligations.PchkReturnsAValidPoint := by
  refine ⟨by decide, fun s ia P c => ⟨fun hP => ?_, fun hA => ?_⟩⟩
  · rw [exec_pchk, settle_decPt_of_holds hP, settle_ok, complete_encPt]
  · rw [exec_pchk, settle_decPt_of_failsWith hA]

/-- Settles O31: x = 0 would make 7 a square and y = 0 would make −7 a cube modulo p; the other examples are computed. -/
theorem onCurvePredicateAndItsExamples : Obligations.OnCurvePredicateAndItsExamples := by
  obtain ⟨-, -, hG⟩ := (valid_affine Gx Gy).mp G_valid
  exact ⟨rfl, fun x y _ _ => onCurve_iff_int x y, hG, by decide, onCurve_zero_left p_pos,
    fun _ => onCurve_zero_left, fun x _ => onCurve_zero_right x⟩

/-- Settles O30: PGEN reads no operand, and G is the pair of the two constants (R152). -/
theorem pgenReturnsTheGenerator : Obligations.PgenReturnsTheGenerator := by
  refine ⟨by decide, fun s => ?_⟩
  rw [exec_pgen, settle_ok, complete_encPt, G, Gx, Gy]

end Sys2Proof.Statements
end

section
/-! PROOFS. The TaggedHash commands (O36, O37): what each computes of the operand bytes, and how the challenge scalar comes
from the challenge hash. -/

namespace Sys2Proof.Machine

open Sys2Proof.Statements

/-! ### The hash and its number -/

/-- R195: a hash value is eight words of four bytes. -/
@[simp] theorem ShaWords.bytes_length (H : ShaWords) : H.bytes.length = 32 := by
  simp [ShaWords.bytes]

@[simp] theorem sha256_length (M : List Byte) : (sha256 M).length = 32 :=
  ShaWords.bytes_length _

/-- R196 to R198: the challenge hash with the tagged hash written out, as one message of five strings. -/
theorem chalHash_eq_sha256 (rb pkb mb : List Byte) :
    chalHash rb pkb mb = sha256 (sha256 challengeTag ++ sha256 challengeTag ++ rb ++ pkb ++ mb) := by
  simp only [chalHash, taggedHash, List.append_assoc]

@[simp] theorem chalHash_length (rb pkb mb : List Byte) : (chalHash rb pkb mb).length = 32 :=
  sha256_length _

/-- The number of the challenge hash fits a result register. -/
theorem intOfBytes_chalHash_lt (rb pkb mb : List Byte) : intOfBytes (chalHash rb pkb mb) < 2 ^ 256 :=
  calc intOfBytes (chalHash rb pkb mb)
      < 256 ^ (chalHash rb pkb mb).length := intOfBytes_lt _
    _ = 2 ^ 256 := by rw [chalHash_length]; norm_num

/-- R198: 2·n > 2^256, so a 256-bit number is reduced modulo n by at most one subtraction. -/
theorem mod_n_eq_ite {h : Nat} (hh : h < 2 ^ 256) : h % n = if h < n then h else h - n := by
  have h2n := two_n_gt
  split
  case isTrue hlt => exact Nat.mod_eq_of_lt hlt
  case isFalse hge =>
    calc h % n = (h - n) % n := Nat.mod_eq_sub_mod (Nat.le_of_not_lt hge)
      _ = h - n := Nat.mod_eq_of_lt (by omega)

theorem chal_lt (rb pkb mb : List Byte) : chal rb pkb mb < n := Nat.mod_lt _ n_pos

/-! ### What each command answers -/

theorem exec_thash (s : State) :
    exec .thash s =
      .next (valueState s (intOfBytes (chalHash (bytes32 s.opnd0) (bytes32 s.opnd1) (bytes32 s.opnd2)))) := rfl

theorem exec_chal (s : State) :
    exec .chal s = .next (valueState s (chal (bytes32 s.opnd0) (bytes32 s.opnd1) (bytes32 s.opnd2))) := rfl

/-- A number that fits the register is read back from the state that it gives. -/
theorem valueState_res0_toNat (s : State) {v : Nat} (hv : v < 2 ^ 256) : (valueState s v).res0.toNat = v :=
  (BitVec.toNat_ofNat v 256).trans (Nat.mod_eq_of_lt hv)

end Sys2Proof.Machine

namespace Sys2Proof.Statements

open Sys2Proof.Machine

/-- Settles O37: THASH answers the whole hash, 2·n exceeds it, and CHAL is that hash modulo n. -/
theorem chalReducesTheHash : Obligations.ChalReducesTheHash := by
  refine ⟨by decide, fun s => ⟨_, exec_thash s, ?_⟩⟩
  have hlt := intOfBytes_chalHash_lt (bytes32 s.opnd0) (bytes32 s.opnd1) (bytes32 s.opnd2)
  rw [valueState_res0_toNat s hlt, ← mod_n_eq_ite hlt]
  exact ⟨exec_chal s, chal_lt _ _ _⟩

/-- Settles O36: the challenge hash of THASH, with its tagged hash written out. -/
theorem thashIsTheTaggedHash : Obligations.ThashIsTheTaggedHash := by
  refine ⟨by decide, fun s => ?_⟩
  rw [exec_thash, chalHash_eq_sha256]

end Sys2Proof.Statements
end

section
/-! PROOFS. VERIFY (O38, O40): the boolean that it answers, and the verifier's last check R = s·G − e·P as the equation
R + e·P = s·G between the points of the curve. -/

namespace Sys2Proof.Machine

open Sys2Proof.Statements

/-! ### The answer of VERIFY -/

/-- R224: the verifier's verdict is the whole outcome. -/
theorem exec_verify (s : State) :
    exec .verify s = .next (boolState s
      (verify (bytes32 s.opnd0) (bytes32 s.opnd1 ++ bytes32 s.opnd2) (bytes32 s.opnd3))) :=
  congrArg Host.Outcome.next (complete_encBool s _)

/-- The verdict can be read back from T. -/
theorem boolState_inj {s : State} {b c : Bool} : boolState s b = boolState s c ↔ b = c :=
  ⟨fun h => congrArg (fun t : State => t.status.t) h, fun h => h ▸ rfl⟩

/-! ### The two halves of a signature -/

theorem slice_bytes32_first (v w : Reg) : slice (bytes32 v ++ bytes32 w) 0 32 = bytes32 v := by
  rw [slice, List.drop_zero]
  exact List.take_left' (bytes32_length v)

theorem slice_bytes32_second (v w : Reg) : slice (bytes32 v ++ bytes32 w) 32 64 = bytes32 w := by
  rw [slice, List.drop_left' (bytes32_length v)]
  exact List.take_of_length_le (bytes32_length w).le

/-! ### The checks of the verifier, one by one -/

/-- R221, steps 5 to 8: the point accepted is finite, above r and of even y. -/
theorem acceptsPoint_iff {R : Point} {r : Nat} :
    acceptsPoint R r = true ↔ ∃ y, R = .affine r y ∧ y % 2 = 0 := by
  cases R with
  | infinity => simp [acceptsPoint]
  | affine x y =>
    have haccepts : acceptsPoint (.affine x y) r = true ↔ x = r ∧ y % 2 = 0 := by
      simp [acceptsPoint, and_comm]
    simp [haccepts]

/-- R159: `lift_x` returns exactly the point above x with even y. -/
theorem liftX_eq_ok_iff {x : Nat} {P : Point} (hx : x < p) :
    liftX x = .ok P ↔ ∃ y, IsPoint x y ∧ y % 2 = 0 ∧ P = .affine x y := by
  constructor
  · have : Fact p.Prime := ⟨p_prime⟩
    intro h
    obtain ⟨y, rfl, hv, hy⟩ := liftX_ok hx h
    exact ⟨y, valid_affine_iff_isPoint.mp hv, hy, rfl⟩
  · rintro ⟨y, h, hy, rfl⟩
    exact liftX_of_isPoint_even h hy

/-- R221: the verdict on the four operand registers is true when every check in turn lets it through. -/
theorem verify_bytes32_iff (m r s pk : Reg) :
    verify (bytes32 m) (bytes32 r ++ bytes32 s) (bytes32 pk) = true ↔
      pk.toNat < p ∧ r.toNat < p ∧ s.toNat < n ∧ ∃ P, liftX pk.toNat = .ok P ∧
        acceptsPoint (verifyPoint s.toNat (chal (bytes32 r) (bytes32 pk) (bytes32 m)) P) r.toNat = true := by
  rw [verify, slice_bytes32_first, slice_bytes32_second, intOfBytes_bytes32, intOfBytes_bytes32, intOfBytes_bytes32]
  cases liftX pk.toNat <;> simp

/-! ### The verification equation -/

/-- R221, step 4, in the curve's group. -/
theorem verifyPoint_spec [Fact p.Prime] {s e : Nat} {P : Point} (hs : s < n) (he : e < n) (hP : P.valid = true) :
    (verifyPoint s e P).valid = true ∧ toSecp (verifyPoint s e P) = s • toSecp G - e • toSecp P := by
  obtain ⟨hsG, esG⟩ := ptMul_spec G_valid (hs.trans n_lt)
  obtain ⟨heP, eeP⟩ := ptMul_spec hP (he.trans n_lt)
  obtain ⟨hneg, eneg⟩ := ptNeg_spec heP
  obtain ⟨hsum, esum⟩ := ptAdd_spec hsG hneg
  exact ⟨hsum, by rw [verifyPoint, esum, esG, eneg, eeP, sub_eq_add_neg]⟩

/-- R225: s·G − e·P is R exactly when R + e·P is s·G. -/
theorem verifyPoint_eq_iff {s e : Nat} {P R : Point} (hs : s < n) (he : e < n) (hP : P.valid = true)
    (hR : R.valid = true) : verifyPoint s e P = R ↔ ptAdd R (ptMulIter e P) = ptMulIter s G := by
  have : Fact p.Prime := ⟨p_prime⟩
  obtain ⟨hV, eV⟩ := verifyPoint_spec hs he hP
  obtain ⟨heP, eeP⟩ := ptMulIter_spec hP e
  obtain ⟨hsG, esG⟩ := ptMulIter_spec G_valid s
  obtain ⟨hsum, esum⟩ := ptAdd_spec hR heP
  calc verifyPoint s e P = R
      ↔ toSecp (verifyPoint s e P) = toSecp R := ⟨congrArg toSecp, toSecp_injective hV hR⟩
    _ ↔ toSecp R + e • toSecp P = s • toSecp G := by rw [eV, sub_eq_iff_eq_add, eq_comm]
    _ ↔ toSecp (ptAdd R (ptMulIter e P)) = toSecp (ptMulIter s G) := by rw [esum, eeP, esG]
    _ ↔ ptAdd R (ptMulIter e P) = ptMulIter s G := ⟨toSecp_injective hsum hsG, congrArg toSecp⟩

/-- R225: the point R = s·G − e·P is accepted when it is the even point above r, which satisfies the equation. -/
theorem acceptsPoint_verifyPoint_iff {s e r : Nat} {P : Point} (hs : s < n) (he : e < n) (hP : P.valid = true) :
    acceptsPoint (verifyPoint s e P) r = true ↔
      ∃ y, IsPoint r y ∧ y % 2 = 0 ∧ ptAdd (.affine r y) (ptMulIter e P) = ptMulIter s G := by
  have : Fact p.Prime := ⟨p_prime⟩
  rw [acceptsPoint_iff]
  refine exists_congr fun y => ⟨?_, ?_⟩
  · rintro ⟨hV, hy⟩
    have hR : (Point.affine r y).valid = true := hV ▸ (verifyPoint_spec hs he hP).1
    exact ⟨valid_affine_iff_isPoint.mp hR, hy, (verifyPoint_eq_iff hs he hP hR).mp hV⟩
  · rintro ⟨hR, hy, heq⟩
    exact ⟨(verifyPoint_eq_iff hs he hP (valid_affine_iff_isPoint.mpr hR)).mpr heq, hy⟩

end Sys2Proof.Machine

namespace Sys2Proof.Statements

open Sys2Proof.Machine

/-- Settles O40: each check of the verifier is a clause of the equation; the ranges of r and of the public key are part of
their being coordinates of points. -/
theorem verifyIsTheSchnorrEquation : Obligations.VerifyIsTheSchnorrEquation := by
  intro s
  rw [exec_verify, Host.Outcome.next.injEq, boolState_inj, verify_bytes32_iff]
  constructor
  · rintro ⟨hpk, -, hs, P, hlift, haccepts⟩
    obtain ⟨py, hP, hpy, rfl⟩ := (liftX_eq_ok_iff hpk).mp hlift
    obtain ⟨ry, hR, hry, heq⟩ :=
      (acceptsPoint_verifyPoint_iff hs (chal_lt _ _ _) (valid_affine_iff_isPoint.mpr hP)).mp haccepts
    exact ⟨hs, ry, py, hR, hry, hP, hpy, heq⟩
  · rintro ⟨hs, ry, py, hR, hry, hP, hpy, heq⟩
    exact ⟨hP.1, hR.1, hs, _, liftX_of_isPoint_even hP hpy,
      (acceptsPoint_verifyPoint_iff hs (chal_lt _ _ _) (valid_affine_iff_isPoint.mpr hP)).mpr ⟨ry, hR, hry, heq⟩⟩

/-- Settles O38: no path of VERIFY raises an error, since the verifier folds every failure into its verdict (R222). -/
theorem verifyNeverRaises : Obligations.VerifyNeverRaises :=
  ⟨by decide, exec_verify⟩

end Sys2Proof.Statements
end

section
/-! PROOFS. The adapter at its boundary (O57): what each of the three transactions of a call does to the block, and the
call as a whole. -/

namespace Sys2Proof.Machine

open Sys2Proof.Statements

/-! ### The input in the operand buffer -/

theorem slice_append_slice (B : List Byte) {i j k : Nat} (hij : i ≤ j) (hjk : j ≤ k) :
    slice B i j ++ slice B j k = slice B i k := by
  have hdrop : B.drop j = (B.drop i).drop (j - i) := by rw [List.drop_drop, Nat.add_sub_cancel' hij]
  have hlen : j - i + (k - j) = k - i := by omega
  rw [slice, slice, slice, hdrop, ← List.take_add, hlen]

/-- Operand register `i` holds its 32 of the 128 bytes written (R52). -/
theorem bytes32_opnd_setOperandBytes (s : State) {B : List Byte} (h : B.length = 128) (i : Fin 4) :
    bytes32 ((s.setOperandBytes B).opnd i) = slice B (0x20 * i.val) (0x20 * i.val + 0x20) := by
  match i with
  | 0 | 1 | 2 | 3 => exact bytes32_regOfBytes _ (by simp [h])

/-- A write of the whole operand buffer keeps no byte of what stood there. -/
theorem writeOperandBytes_whole (s : State) {B : List Byte} (h : B.length = 128) :
    s.writeOperandBytes 0 B = s.setOperandBytes B := by
  have hdrop : s.operandBytes.drop (0 + B.length) = [] := List.drop_eq_nil_of_le (by simp [h])
  rw [State.writeOperandBytes, hdrop, List.take_zero, List.nil_append, List.append_nil]

/-- On an operand buffer of those bytes VERIFY judges message, signature and public key as R86 cuts them. -/
theorem exec_verify_setOperandBytes (s : State) {B : List Byte} (h : B.length = 128) :
    exec .verify (s.setOperandBytes B) = .next (boolState (s.setOperandBytes B)
      (verify (slice B 0 32) (slice B 32 96) (slice B 96 128))) := by
  have hmsg : bytes32 (s.setOperandBytes B).opnd0 = slice B 0 32 := bytes32_opnd_setOperandBytes s h 0
  have hr : bytes32 (s.setOperandBytes B).opnd1 = slice B 32 64 := bytes32_opnd_setOperandBytes s h 1
  have hs : bytes32 (s.setOperandBytes B).opnd2 = slice B 64 96 := bytes32_opnd_setOperandBytes s h 2
  have hpk : bytes32 (s.setOperandBytes B).opnd3 = slice B 96 128 := bytes32_opnd_setOperandBytes s h 3
  have hsig : slice B 32 64 ++ slice B 64 96 = slice B 32 96 := slice_append_slice B (by decide) (by decide)
  rw [exec_verify, hmsg, hr, hs, hpk, hsig]

/-! ### Host transactions -/

@[simp] theorem thenDo_next {α : Type} (s : State) (f : State → Host.Outcome α Fault Refusal) :
    thenDo (.next s) f = f s := rfl

/-- A write of the whole operand buffer (R53). -/
theorem transact_memWrite_operands (s : State) {B : List Byte} (h : B.length = 128) :
    transact (.memWrite 0x00 B) s = .next ({ s with answer := [] }.setOperandBytes B) := by
  rw [← writeOperandBytes_whole _ h]
  simp [transact, hostWrite, h]

/-- A CMD write of a legal word runs its command (R53, R92). -/
theorem transact_memWrite_cmd (s : State) {B : List Byte} {i : Instr} (hB : B.length = 4) (hd : decode B = .ok i) :
    transact (.memWrite 0xC0 B) s = exec i { s with answer := [] } := by
  simp [transact, hostWrite, hB, executeCommand, hd]

/-- The CMD write of VERIFY's command word, on an operand buffer of those bytes. -/
theorem transact_memWrite_verify (s : State) {B : List Byte} (h : B.length = 128) :
    transact (.memWrite 0xC0 [0x00#8, 0x00#8, 0x00#8, 0x40#8]) (s.setOperandBytes B) =
      .next (boolState ({ s with answer := [] }.setOperandBytes B)
        (verify (slice B 0 32) (slice B 32 96) (slice B 96 128))) := by
  have hcmd : decode [0x00#8, 0x00#8, 0x00#8, 0x40#8] = .ok .verify := by decide
  exact (transact_memWrite_cmd _ rfl hcmd).trans (exec_verify_setOperandBytes { s with answer := [] } h)

theorem readBytes_res0 (s : State) : s.readBytes 0x80 32 = bytes32 s.res0 := by
  apply List.ext_getElem?
  intro a
  rw [readBytes_getElem?]
  split
  case isTrue h => exact readByte_res0 s h
  case isFalse h => exact (List.getElem?_eq_none (by simpa using h)).symm

/-- A read of res[0] (R53). -/
theorem transact_memRead_res0 (s : State) :
    transact (.memRead 0x80 32) s = .next { s with answer := bytes32 s.res0 } := by
  have hread := readBytes_res0 { s with answer := [] }
  simp [transact, hostRead, hread]

/-! ### The call -/

/-- The block after a call with these 128 bytes (R245): they are its operand buffer, the outcome is that of VERIFY, and
the last transaction returned res[0]. -/
def verifyCallState (s : State) (input : List Byte) : State :=
  let judged := boolState (s.setOperandBytes input) (verify (slice input 0 32) (slice input 32 96) (slice input 96 128))
  { judged with answer := bytes32 judged.res0 }

theorem verifyCallState_answer (s : State) (input : List Byte) :
    (verifyCallState s input).answer = bytes32
      (if verify (slice input 0 32) (slice input 32 96) (slice input 96 128) then 1#256 else 0#256) := rfl

theorem verifyCallState_operandBytes (s : State) {input : List Byte} (h : input.length = 128) :
    (verifyCallState s input).operandBytes = input :=
  operandBytes_setOperandBytes s input h

/-- The three transactions of a call all go through, one after another. -/
theorem transactAll_verifyCall (s : State) {input : List Byte} (h : input.length = 128) :
    transactAll (verifyCall input) s = .next (verifyCallState s input) := by
  rw [verifyCall, transactAll, transact_memWrite_operands s h, thenDo_next, transactAll, transact_memWrite_verify _ h,
    thenDo_next, transactAll, transact_memRead_res0, thenDo_next]
  rfl

section
variable {c : Config} {gas : Gas} {input : List Byte}

/-- R242: the gas check comes before all else. -/
theorem adapterRun_outOfGas (s : State) (hgas : gas < c.gasCost) : adapterRun c gas input s = .fault .outOfGas :=
  if_pos hgas

/-- R243, R244: an input of another length never reaches the block. -/
theorem adapterRun_wrongLength (s : State) (hgas : c.gasCost ≤ gas) (hlen : input.length ≠ 128) :
    adapterRun c gas input s = .next ⟨bytes32 0#256, c.gasCost, s⟩ := by
  rw [adapterRun, requiredGas, if_neg (BitVec.not_lt.mpr hgas), if_pos hlen, falseOutput]

/-- R245: the output is what the call's last transaction returned. -/
theorem adapterRun_call (s : State) (hgas : c.gasCost ≤ gas) (hlen : input.length = 128) :
    adapterRun c gas input s =
      .next ⟨(verifyCallState s input).answer, c.gasCost, verifyCallState s input⟩ := by
  rw [adapterRun, requiredGas, if_neg (BitVec.not_lt.mpr hgas), if_neg (not_not.mpr hlen),
    transactAll_verifyCall s hlen, thenDo_next]

end

end Sys2Proof.Machine

namespace Sys2Proof.Statements

open Sys2Proof.Machine

/-- Settles O57: the checks end the call in their order, and what passes them is one VERIFY of the input. -/
theorem adapterComputesRun : Obligations.AdapterComputesRun := by
  refine fun c gas input s => ⟨adapterRun_outOfGas s, adapterRun_wrongLength s, fun hgas hlen => ?_⟩
  refine ⟨verifyCallState s input, ?_, verifyCallState_operandBytes s hlen⟩
  rw [adapterRun_call s hgas hlen, verifyCallState_answer]

end Sys2Proof.Statements
end

section
/-! PROOFS. The command word (O1 to O5): its fields, the rows of the opcode map, and the two round trips of decode and
encode. -/

namespace Sys2Proof

open Machine

/-! ### The fields of a word -/

/-- R88: every bit of a word belongs to one of the four fields. -/
theorem word_fieldsOfWord (w : Word32) : (fieldsOfWord w).word = w := by
  apply BitVec.eq_of_getLsbD_eq
  intro j hj
  simp only [word_bit, fieldsOfWord, flagIA, flagIB, BitVec.getLsbD_extractLsb']
  split_ifs with h8 hia hib
  · simp [h8]
  · rw [hia]
  · rw [hib]
  · rw [decide_eq_true (by omega), Bool.true_and, Nat.add_sub_cancel' (by omega)]

/-- R88: the fields do not overlap. -/
theorem fieldsOfWord_word (f : CmdFields) : fieldsOfWord f.word = f := by
  have hopc : f.word.extractLsb' 0 8 = f.opc :=
    BitVec.eq_of_getLsbD_eq fun j hj => by simp [word_bit, hj]
  have hzero : f.word.extractLsb' 10 22 = f.zero :=
    BitVec.eq_of_getLsbD_eq fun j hj => by
      rw [BitVec.getLsbD_extractLsb', word_bit, if_neg (by omega), if_neg (by omega), if_neg (by omega),
        Nat.add_sub_cancel_left, decide_eq_true hj, Bool.true_and]
  have hia : flagIA f.word = f.ia := word_bit f 8
  have hib : flagIB f.word = f.ib := word_bit f 9
  rw [fieldsOfWord, hopc, hia, hib, hzero]

/-- R89, R91: legal fields have no bit of 31:10 set, and only the flags of their opcode's format. -/
theorem CmdFields.format_of_wellFormed {f : CmdFields} (h : f.wellFormed = true) :
    f.zero = 0#22 ∧ ((f.opc ∈ opcodesZ ∧ f.ia = false ∧ f.ib = false) ∨ (f.opc ∈ opcodesP1 ∧ f.ib = false) ∨
      f.opc ∈ opcodesP2) := by
  simp only [wellFormed, opcodeOk, iaOk, ibOk, zeroOk, Bool.and_eq_true, Bool.or_eq_true, Bool.not_eq_true',
    List.contains_iff_mem, beq_iff_eq] at h
  tauto

theorem Instr.fields_wellFormed (i : Instr) : i.fields.wellFormed = true := by
  cases i with
  | padd ia ib | peq ia ib => cases ia <;> cases ib <;> decide
  | pdbl ia | pmul ia | pneg ia | pchk ia => cases ia <;> decide
  | _ => decide

/-! ### The opcode map -/

/-- The bits IA and IB as a word (R88). -/
def flagBits (ia ib : Bool) : Word32 :=
  (if ia then 0x100#32 else 0#32) ||| (if ib then 0x200#32 else 0#32)

theorem and_flagMask (w : Word32) : w &&& 0x300#32 = flagBits (flagIA w) (flagIB w) := by
  have hmask : (0x300#32 : Word32) = BitVec.twoPow 32 8 ||| BitVec.twoPow 32 9 := by decide
  rw [hmask, BitVec.and_or_distrib_left, BitVec.and_twoPow, BitVec.and_twoPow]
  rfl

/-- Two rows whose words differ under both masks have no word in common. -/
theorem OpcodeRow.word_and_mask_eq {a b : OpcodeRow} {w : Word32} (ha : a.matchesWord w = true)
    (hb : b.matchesWord w = true) : a.word &&& b.mask = b.word &&& a.mask := by
  have ha : w &&& a.mask = a.word := eq_of_beq ha
  have hb : w &&& b.mask = b.word := eq_of_beq hb
  rw [← ha, ← hb, BitVec.and_assoc, BitVec.and_assoc, BitVec.and_comm a.mask]

theorem opcodeMap_words_differ :
    opcodeMap.Pairwise fun a b => a.word &&& b.mask ≠ b.word &&& a.mask := by decide

theorem opcodeMap_mask_flags : ∀ row ∈ opcodeMap, 0x300#32 &&& ~~~row.mask = ~~~row.mask := by decide

theorem opcodeMap_encode : ∀ row ∈ opcodeMap, ∀ ia ib : Bool,
    encode (row.instr ia ib) = row.word ||| (flagBits ia ib &&& ~~~row.mask) := by decide

/-- R90: under a row's mask the word is the row's, and the bits outside the mask are the flags. -/
theorem encode_instr_of_matchesWord {row : OpcodeRow} {w : Word32} (hrow : row ∈ opcodeMap)
    (h : row.matchesWord w = true) : encode (row.instr (flagIA w) (flagIB w)) = w := by
  have hword : w &&& row.mask = row.word := eq_of_beq h
  calc encode (row.instr (flagIA w) (flagIB w))
      = row.word ||| (w &&& 0x300#32 &&& ~~~row.mask) := by rw [opcodeMap_encode row hrow, and_flagMask]
    _ = (w &&& row.mask) ||| (w &&& ~~~row.mask) := by rw [BitVec.and_assoc, opcodeMap_mask_flags row hrow, hword]
    _ = w := by rw [← BitVec.and_or_distrib_left, BitVec.or_not_self, BitVec.and_allOnes]

/-! ### Decode and encode -/

theorem decodeWord_encode (i : Instr) : decodeWord (encode i) = .ok i := by
  cases i with
  | padd ia ib | peq ia ib => cases ia <;> cases ib <;> decide
  | pdbl ia | pmul ia | pneg ia | pchk ia => cases ia <;> decide
  | _ => decide

theorem decodeWord_cases (w : Word32) :
    (∃ i, decodeWord w = .ok i ∧ encode i = w) ∨ decodeWord w = .error .illegalCommand := by
  unfold decodeWord
  cases hfind : opcodeMap.find? (fun row => row.matchesWord w) with
  | none => exact .inr rfl
  | some row =>
    have hmatch : row.matchesWord w = true := List.find?_some (p := (OpcodeRow.matchesWord · w)) hfind
    exact .inl ⟨_, rfl, encode_instr_of_matchesWord (List.mem_of_find?_eq_some hfind) hmatch⟩

theorem decodeWord_eq_ok_iff {w : Word32} {i : Instr} : decodeWord w = .ok i ↔ w = encode i := by
  refine ⟨fun h => ?_, fun h => h ▸ decodeWord_encode i⟩
  rcases decodeWord_cases w with ⟨j, hj, hw⟩ | herr
  · obtain rfl : j = i := Except.ok.inj (hj.symm.trans h)
    exact hw.symm
  · rw [herr] at h
    cases h

/-- R90, R91: every combination of an opcode with the flags of its format decodes. -/
theorem decodeWord_word_of_wellFormed {f : CmdFields} (h : f.wellFormed = true) :
    decodeWord f.word ≠ .error .illegalCommand := by
  have hZ : ∀ opc ∈ opcodesZ, decodeWord (CmdFields.word ⟨opc, false, false, 0#22⟩) ≠ .error .illegalCommand := by
    decide
  have hP1 : ∀ opc ∈ opcodesP1, ∀ ia, decodeWord (CmdFields.word ⟨opc, ia, false, 0#22⟩) ≠ .error .illegalCommand := by
    decide
  have hP2 : ∀ opc ∈ opcodesP2, ∀ ia ib, decodeWord (CmdFields.word ⟨opc, ia, ib, 0#22⟩) ≠ .error .illegalCommand := by
    decide
  obtain ⟨opc, ia, ib, zero⟩ := f
  obtain ⟨rfl, ⟨hopc, rfl, rfl⟩ | ⟨hopc, rfl⟩ | hopc⟩ := CmdFields.format_of_wellFormed h
  · exact hZ opc hopc
  · exact hP1 opc hopc ia
  · exact hP2 opc hopc ia ib

/-- R91: a word is illegal when one of the four grounds holds of its fields. -/
theorem decodeWord_eq_illegal_iff {w : Word32} :
    decodeWord w = .error .illegalCommand ↔ (fieldsOfWord w).wellFormed = false := by
  constructor
  · intro herr
    by_contra hwf
    have hok := decodeWord_word_of_wellFormed (Bool.eq_true_of_not_eq_false hwf)
    rw [word_fieldsOfWord] at hok
    exact hok herr
  · intro hwf
    refine (decodeWord_cases w).resolve_left ?_
    rintro ⟨i, -, rfl⟩
    rw [encode, fieldsOfWord_word, i.fields_wellFormed] at hwf
    cases hwf

theorem decode_of_length {B : List Byte} (h : B.length = 4) : decode B = decodeWord (word32OfBytes B) :=
  if_pos h

theorem decode_bytes4 (w : Word32) : decode (bytes4 w) = decodeWord w := by
  rw [decode_of_length (bytes4_length w), word32OfBytes_bytes4]

theorem length_of_decode_eq_ok {B : List Byte} {i : Instr} (h : decode B = .ok i) : B.length = 4 := by
  by_contra hlen
  rw [decode, if_neg hlen] at h
  cases h

end Sys2Proof

namespace Sys2Proof.Statements

open Sys2Proof.Machine

/-- Settles O2: a word matches a row exactly when it is the word of the row's command with the word's own flags, and four
bytes are those of the word they make. -/
theorem bytesDecodeExactlyToEncodedCommand : Obligations.BytesDecodeExactlyToEncodedCommand := by
  intro B i
  constructor
  · intro h
    have hlen := length_of_decode_eq_ok h
    rw [decode_of_length hlen, decodeWord_eq_ok_iff] at h
    rw [encodeBytes, ← h, bytes4_word32OfBytes B hlen]
  · rintro rfl
    rw [encodeBytes, decode_bytes4, decodeWord_encode]

/-- Settles O3: a word that matches two rows would make their words agree under both masks, and no two rows' do. -/
theorem opcodeRowsAreDisjoint : Obligations.OpcodeRowsAreDisjoint :=
  opcodeMap_words_differ.imp fun hne _ ⟨ha, hb⟩ => hne (OpcodeRow.word_and_mask_eq ha hb)

/-- Settles O4: the well-formed fields are those of the commands, and the words of the commands are those that decode. -/
theorem wordIsIllegalExactlyWhenFieldsAre : Obligations.WordIsIllegalExactlyWhenFieldsAre :=
  fun _ => decodeWord_eq_illegal_iff

/-- Settles O5: the fields cover the word and do not overlap. -/
theorem fieldsMakeUpTheWord : Obligations.FieldsMakeUpTheWord :=
  ⟨word_fieldsOfWord, fieldsOfWord_word⟩

/-- Settles O1: thirteen words, each decoded. -/
theorem opcodeWordsDecodeToTheirCommands : Obligations.OpcodeWordsDecodeToTheirCommands := by
  unfold Obligations.OpcodeWordsDecodeToTheirCommands
  decide

end Sys2Proof.Statements
end

section
/-! PROOFS. The host port (O6 to O11, O43, O52 to O56, O58, O59): the register space's control words, when each access goes
through and with what effect, and the step that takes the oldest transaction. -/

namespace Sys2Proof.Machine

/-! ### The accesses, one by one -/

section
variable {off k : Nat} {B : List Byte}

theorem hostWrite_operands (s : State) (h1 : 1 ≤ B.length) (h : off + B.length ≤ 0x80) :
    hostWrite off B s = .next (s.writeOperandBytes off B) := by
  rw [hostWrite, if_neg (by omega), if_neg (by omega), if_pos h]

/-- R53: a write to `res` or to STATUS has no effect. -/
theorem hostWrite_ignored (s : State) (h1 : 1 ≤ B.length)
    (h : (0x80 ≤ off ∧ off + B.length ≤ 0xC0) ∨ (0xC4 ≤ off ∧ off + B.length ≤ 0xC8)) :
    hostWrite off B s = .next s := by
  rw [hostWrite, if_neg (by omega), if_neg (by omega), if_neg (by omega), if_neg (by omega)]
  rcases h with ⟨-, hlast⟩ | ⟨hoff, -⟩
  · rw [if_pos hlast]
  · rw [if_neg (by omega), if_neg (by omega), if_pos hoff]

theorem hostWrite_cmd (s : State) (h : B.length = 4) : hostWrite 0xC0 B s = executeCommand B s := by
  simp [hostWrite, h]

theorem hostWrite_partialCommand (s : State) (h1 : 1 ≤ B.length) (hoff : 0xC0 ≤ off) (hlast : off + B.length ≤ 0xC4)
    (h4 : B.length ≠ 4) : hostWrite off B s = .refused .partialCommandWrite := by
  rw [hostWrite, if_neg (by omega), if_neg (by omega), if_neg (by omega), if_neg (by omega), if_neg (by omega),
    if_neg (by omega), if_neg (by omega), if_neg (by omega), if_neg h4]

theorem hostWrite_straddles (s : State) (hlast : off + B.length ≤ 0xC8)
    (h : (off < 0x80 ∧ 0x80 < off + B.length) ∨ (off < 0xC0 ∧ 0xC0 < off + B.length) ∨
      (off < 0xC4 ∧ 0xC4 < off + B.length)) : hostWrite off B s = .refused .straddlesRegisters := by
  rw [hostWrite, if_neg (by omega), if_neg (by omega), if_neg (by omega)]
  split_ifs <;> first | rfl | omega

theorem hostWrite_outside (s : State) (h1 : 1 ≤ B.length) (h : 0xC8 < off + B.length) :
    hostWrite off B s = .refused .outsideWindow := by
  rw [hostWrite, if_neg (by omega), if_pos h]

theorem statusReadOk_iff : statusReadOk off k = true ↔ k = 4 ∨ k = 1 ∨ (k = 2 ∧ off % 2 = 0) := by
  simp [statusReadOk, or_assoc]

theorem hostRead_answers (s : State) (h1 : 1 ≤ k)
    (h : off + k ≤ 0xC0 ∨ (0xC0 ≤ off ∧ off + k ≤ 0xC4) ∨
      (0xC4 ≤ off ∧ off + k ≤ 0xC8 ∧ (k = 4 ∨ k = 1 ∨ (k = 2 ∧ off % 2 = 0)))) :
    hostRead off k s = .next { s with answer := s.readBytes off k } := by
  rw [hostRead, if_neg (by omega), if_neg (by omega)]
  rcases h with hres | ⟨hoff, hlast⟩ | ⟨hoff, -, hshape⟩
  · rw [if_pos hres]
  · rw [if_neg (by omega), if_neg (by omega), if_pos hlast]
  · rw [if_neg (by omega), if_neg (by omega), if_neg (by omega), if_neg (by omega),
      if_pos (statusReadOk_iff.mpr hshape)]

theorem hostRead_straddles (s : State) (hlast : off + k ≤ 0xC8)
    (h : (off < 0xC0 ∧ 0xC0 < off + k) ∨ (off < 0xC4 ∧ 0xC4 < off + k)) :
    hostRead off k s = .refused .straddlesRegisters := by
  rw [hostRead, if_neg (by omega), if_neg (by omega), if_neg (by omega)]
  split_ifs <;> first | rfl | omega

theorem hostRead_outside (s : State) (h1 : 1 ≤ k) (h : 0xC8 < off + k) :
    hostRead off k s = .refused .outsideWindow := by
  rw [hostRead, if_neg (by omega), if_pos h]

/-! ### Which accesses go through -/

theorem legal_memWrite_iff :
    (Transaction.memWrite off B).legal = true ↔ 1 ≤ B.length ∧
      (off + B.length ≤ 0x80 ∨ (0x80 ≤ off ∧ off + B.length ≤ 0xC0) ∨ (off = 0xC0 ∧ B.length = 4) ∨
        (0xC4 ≤ off ∧ off + B.length ≤ 0xC8)) := by
  simp [Transaction.legal, or_assoc]

theorem legal_memRead_iff :
    (Transaction.memRead off k).legal = true ↔ 1 ≤ k ∧
      (off + k ≤ 0xC0 ∨ (0xC0 ≤ off ∧ off + k ≤ 0xC4) ∨
        (0xC4 ≤ off ∧ off + k ≤ 0xC8 ∧ (k = 4 ∨ k = 1 ∨ (k = 2 ∧ off % 2 = 0)))) := by
  simp [Transaction.legal, or_assoc]
  omega

theorem hostWrite_of_legal (s : State) (h : (Transaction.memWrite off B).legal = true) :
    ∃ s', hostWrite off B s = .next s' := by
  obtain ⟨h1, hop | hres | ⟨rfl, h4⟩ | hst⟩ := legal_memWrite_iff.mp h
  · exact ⟨_, hostWrite_operands s h1 hop⟩
  · exact ⟨_, hostWrite_ignored s h1 (.inl hres)⟩
  · obtain ⟨o, ho⟩ := executeCommand_settles B s h4
    exact ⟨_, (hostWrite_cmd s h4).trans ho⟩
  · exact ⟨_, hostWrite_ignored s h1 (.inr hst)⟩

theorem hostWrite_of_not_legal (s : State) (h : ¬(Transaction.memWrite off B).legal = true) :
    ∃ r, hostWrite off B s = .refused r := by
  rw [legal_memWrite_iff] at h
  unfold hostWrite
  simp only
  split_ifs <;> first | exact ⟨_, rfl⟩ | omega

theorem hostRead_of_not_legal (s : State) (h : ¬(Transaction.memRead off k).legal = true) :
    ∃ r, hostRead off k s = .refused r := by
  rw [legal_memRead_iff] at h
  unfold hostRead
  simp only [statusReadOk_iff]
  split_ifs <;> first | exact ⟨_, rfl⟩ | omega

end

/-! ### Transactions -/

theorem transact_memWrite (off : Nat) (B : List Byte) (s : State) :
    transact (.memWrite off B) s = hostWrite off B { s with answer := [] } := rfl

theorem transact_memRead (off k : Nat) (s : State) :
    transact (.memRead off k) s = hostRead off k { s with answer := [] } := rfl

/-- A transaction goes through exactly when the table of R53 has it, and is refused otherwise: it never faults. -/
theorem transact_cases (t : Transaction) (s : State) :
    (t.legal = true ∧ ∃ s', transact t s = .next s') ∨ (t.legal = false ∧ ∃ r, transact t s = .refused r) := by
  rw [← Bool.not_eq_true]
  by_cases h : t.legal = true
  · refine .inl ⟨h, ?_⟩
    cases t with
    | memWrite off B => exact hostWrite_of_legal _ h
    | memRead off k =>
      obtain ⟨h1, hshape⟩ := legal_memRead_iff.mp h
      exact ⟨_, hostRead_answers _ h1 hshape⟩
    | reset => exact ⟨_, rfl⟩
  · refine .inr ⟨h, ?_⟩
    cases t with
    | memWrite off B => exact hostWrite_of_not_legal _ h
    | memRead off k => exact hostRead_of_not_legal _ h
    | reset => exact absurd rfl h

/-- Everything a transaction that goes through can do to the block. -/
theorem transact_next {t : Transaction} {s s' : State} (h : transact t s = .next s') :
    (∃ off B, s' = { s with answer := [] }.writeOperandBytes off B) ∨ (∃ A, s' = { s with answer := A }) ∨
    (∃ i, exec i { s with answer := [] } = .next s') ∨ (∃ e, s' = raiseError e { s with answer := [] }) ∨
    s' = applyReset { s with answer := [] } := by
  cases t with
  | memWrite off B =>
    rcases hostWrite_next h with ⟨-, -, rfl⟩ | ⟨-, -, -, rfl⟩ | ⟨-, -, -, rfl⟩ | ⟨-, h4, hexec⟩
    · exact .inl ⟨off, B, rfl⟩
    · exact .inr (.inl ⟨[], rfl⟩)
    · exact .inr (.inl ⟨[], rfl⟩)
    · rcases executeCommand_cases B { s with answer := [] } h4 with ⟨i, -, e⟩ | ⟨-, e⟩
      · exact .inr (.inr (.inl ⟨i, e.symm.trans hexec⟩))
      · exact .inr (.inr (.inr (.inl ⟨_, (Host.Outcome.next.inj (e.symm.trans hexec)).symm⟩)))
  | memRead off k =>
    obtain ⟨-, -, rfl⟩ := hostRead_next h
    exact .inr (.inl ⟨_, rfl⟩)
  | reset => exact .inr (.inr (.inr (.inr (Host.Outcome.next.inj h).symm)))

/-- What else waits on the port stays there. -/
theorem transact_pending {t : Transaction} {s s' : State} (h : transact t s = .next s') : s'.pending = s.pending := by
  rcases transact_next h with ⟨off, B, rfl⟩ | ⟨A, rfl⟩ | ⟨i, hi⟩ | ⟨e, rfl⟩ | rfl
  · rfl
  · rfl
  · obtain ⟨o, ho⟩ := exec_settles i { s with answer := [] }
    obtain rfl : settle o _ = s' := Host.Outcome.next.inj (ho.symm.trans hi)
    exact settle_pending o _
  · rfl
  · rfl

/-! ### Steps -/

theorem step_of_pending {s : State} {t : Transaction} {later : List Transaction} (h : s.pending = t :: later) :
    step s = transact t { s with pending := later } := by
  rw [step, takeTransaction, h]

theorem step_of_idle {s : State} (h : s.pending = []) : step s = .next s := by
  rw [step, takeTransaction, h]

theorem step_ne_fault (s : State) (f : Fault) : step s ≠ .fault f := by
  rcases step_cases s with ⟨-, e⟩ | ⟨t, later, -, e⟩
  · rw [e]; nofun
  · rcases transact_cases t { s with pending := later } with ⟨-, s', h⟩ | ⟨-, r, h⟩ <;> (rw [e, h]; nofun)

/-- A program of legal transactions takes its next step, and what then waits is legal again. -/
theorem step_of_hostLegal {s : State} (h : s.hostLegal = true) : ∃ s', step s = .next s' ∧ s'.hostLegal = true := by
  rcases step_cases s with ⟨-, e⟩ | ⟨t, later, hpend, e⟩
  · exact ⟨s, e, h⟩
  · rw [State.hostLegal, hpend, List.all_cons, Bool.and_eq_true] at h
    obtain ⟨ht, hlater⟩ := h
    rcases transact_cases t { s with pending := later } with ⟨-, s', h'⟩ | ⟨hf, -⟩
    · refine ⟨s', e.trans h', ?_⟩
      rw [State.hostLegal, transact_pending h']
      exact hlater
    · rw [ht] at hf
      cases hf

/-- Induction over the steps of a run: a state property that every step keeps, and that makes it go through, holds along
the whole run. -/
theorem run_of_stepwise {I : State → Prop} (hstep : ∀ s, I s → ∃ s', step s = .next s' ∧ I s') (k : Nat)
    {s : State} (h : I s) : ∃ t, Host.Core.run core k s = .next t ∧ I t := by
  induction k generalizing s with
  | zero => exact ⟨s, rfl, h⟩
  | succ k ih =>
    obtain ⟨s', hs', h'⟩ := hstep s h
    obtain ⟨t, ht, hI⟩ := ih h'
    exact ⟨t, (run_next core k s s' hs').trans ht, hI⟩

/-! ### Registers by their bytes -/

theorem bytes32_injective : Function.Injective bytes32 :=
  Function.LeftInverse.injective (g := regOfBytes) regOfBytes_bytes32

/-- An operand register is known from its 32 bytes in the register space. -/
theorem opnd_eq_of_readByte {s : State} {i : Fin 4} {v : Reg}
    (h : ∀ j < 32, s.readByte (0x20 * i.val + j) = (bytes32 v)[j]?) : s.opnd i = v := by
  apply bytes32_injective
  apply List.ext_getElem?
  intro j
  by_cases hj : j < 32
  · rw [← readByte_opnd s i hj, h j hj]
  · rw [List.getElem?_eq_none (by simpa using hj), List.getElem?_eq_none (by simpa using hj)]

/-- A host write of a whole operand register. -/
theorem opnd_writeOperandBytes (s : State) (i m : Fin 4) (v : Reg) :
    (s.writeOperandBytes (0x20 * i.val) (bytes32 v)).opnd m = if m = i then v else s.opnd m := by
  have hlast : 0x20 * i.val + (bytes32 v).length ≤ 0x80 := by rw [bytes32_length]; omega
  apply opnd_eq_of_readByte
  intro j hj
  rw [readByte_writeOperandBytes s _ _ _ hlast, bytes32_length]
  split_ifs with hin hmi hmi
  · rw [hmi, Nat.add_sub_cancel_left]
  · have : m.val ≠ i.val := fun h => hmi (Fin.ext h)
    omega
  · subst hmi
    omega
  · exact readByte_opnd s m hj

/-- Result register `j` (R10, R29). -/
def State.result (s : State) (j : Fin 2) : Reg :=
  if j = 0 then s.res0 else s.res1

theorem readByte_result_reg (s : State) (j : Fin 2) {a : Nat} (h : a < 32) :
    s.readByte (0x80 + 0x20 * j.val + a) = (bytes32 (s.result j))[a]? := by
  match j with
  | 0 => exact readByte_res0 s h
  | 1 => exact readByte_res1 s h

/-- The line `RD r<j>` answers the bytes of the result register (R53, R95). -/
theorem run_rd (s : State) (j : Fin 2) :
    ScriptLine.run (.rd j) s = .next { s with answer := bytes32 (s.result j) } := by
  have hread : s.readBytes (0x80 + 0x20 * j.val) 32 = bytes32 (s.result j) := by
    apply List.ext_getElem?
    intro a
    rw [readBytes_getElem?]
    split
    case isTrue h => exact readByte_result_reg s j h
    case isFalse h => exact (List.getElem?_eq_none (by simpa using h)).symm
  rw [ScriptLine.run, ScriptLine.transaction, transact_memRead, hostRead_answers _ (by decide) (.inl (by omega)),
    ← hread]
  rfl

/-- The write of a whole operand register, as the line `WR` makes it (R53, R95). -/
theorem transact_memWrite_register (s : State) (i : Fin 4) (v : Reg) :
    transact (.memWrite (0x20 * i.val) (bytes32 v)) s =
      .next ({ s with answer := [] }.writeOperandBytes (0x20 * i.val) (bytes32 v)) := by
  rw [transact_memWrite, hostWrite_operands _ (by simp) (by rw [bytes32_length]; omega)]

/-- R96: MV is the read of a result register and the write of the bytes read. -/
theorem run_mv (s : State) (i : Fin 4) (j : Fin 2) :
    PseudoLine.run (.mv i j) s =
      .next ({ s with answer := [] }.writeOperandBytes (0x20 * i.val) (bytes32 (s.result j))) := by
  rw [PseudoLine.run, moveResult, run_rd, thenDo_next, transact_memWrite_register]

/-! ### Several blocks -/

/-- R60, R270: a transaction on block `k` that goes through is that block's own, put back in its place. -/
theorem transactAt_next {k : Nat} {t : Transaction} {sys sys' : System} (h : System.transactAt k t sys = .next sys') :
    ∃ s s', sys.blocks[k]? = some s ∧ transact t s = .next s' ∧ sys' = ⟨sys.blocks.set k s'⟩ := by
  unfold System.transactAt at h
  split at h
  case h_1 => cases h
  case h_2 s hs =>
    rcases transact_cases t s with ⟨-, s', hs'⟩ | ⟨-, r, hr⟩
    · rw [hs', thenDo_next] at h
      exact ⟨s, s', hs, hs', (Host.Outcome.next.inj h).symm⟩
    · rw [hr] at h
      cases h

end Sys2Proof.Machine

namespace Sys2Proof.Statements

open Sys2Proof.Machine

/-- Settles O7: an ill-formed word does not decode, and a CMD write that does not decode takes IllegalCommand. -/
theorem illegalWordTakesIllegalCommand : Obligations.IllegalWordTakesIllegalCommand := by
  intro s w later hpend hwf
  have hdec : decode (bytes4 w) = .error .illegalCommand := (decode_bytes4 w).trans (decodeWord_eq_illegal_iff.mpr hwf)
  rw [step_of_pending hpend, transact, hostWrite_cmd _ (bytes4_length w), executeCommand, hdec]
  rfl

/-- Settles O9: a transaction goes through or is refused. -/
theorem noStepEndsInAFault : Obligations.NoStepEndsInAFault :=
  step_ne_fault

/-- Settles O10: the table of R53 has exactly the transactions that go through. -/
theorem stepAnswersExactlyTheLegalTransactions : Obligations.StepAnswersExactlyTheLegalTransactions := by
  intro s t later hpend
  rw [step_of_pending hpend]
  rcases transact_cases t { s with pending := later } with ⟨hl, hs'⟩ | ⟨hl, r, hr⟩
  · exact iff_of_true hs' hl
  · rw [hr, hl]
    exact iff_of_false nofun nofun

/-- Settles O11: by induction on the number of steps, with the legality of what waits as the invariant. -/
theorem legalHostProgramNeverStops : Obligations.LegalHostProgramNeverStops := by
  intro k s h
  obtain ⟨t, ht, -⟩ := run_of_stepwise (fun _ => step_of_hostLegal) k h
  exact ⟨t, ht⟩

/-- Settles O52: the bytes of CMD are zero, and each bit of the STATUS word is that of its field. -/
theorem controlWordsReadAsTheirFields : Obligations.ControlWordsReadAsTheirFields := by
  intro s
  refine ⟨fun j hj => readByte_cmd s _ (by omega) (by omega), status_word_bit _ 0, status_word_bit _ 1,
    status_word_bit _ 2, ?_, status_word_bit _ 3, ?_, fun a ha => ?_⟩
  · apply BitVec.eq_of_getLsbD_eq
    intro j hj
    rw [BitVec.getLsbD_extractLsb', status_word_bit, if_neg (by omega), if_neg (by omega), if_neg (by omega),
      if_pos (by omega), Nat.add_sub_cancel_left, decide_eq_true hj, Bool.true_and]
  · apply BitVec.eq_of_getLsbD_eq
    intro j hj
    rw [BitVec.getLsbD_extractLsb', status_word_bit, if_neg (by omega), if_neg (by omega), if_neg (by omega),
      if_neg (by omega), Bool.and_false, BitVec.getLsbD_zero]
  · exact List.getElem?_eq_none (by rw [spaceBytes_length]; exact ha)

/-- Settles O53: the operand buffer takes the bytes, and the rest of the register space does not show the operands. -/
theorem operandWriteChangesOnlyItsBytes : Obligations.OperandWriteChangesOnlyItsBytes := by
  intro s off B h1 hlast
  exact ⟨_, hostWrite_operands _ h1 hlast, fun a => readByte_writeOperandBytes _ off a B hlast, rfl, rfl, rfl, rfl,
    rfl⟩

/-- Settles O55: the answer is the part of the register space that was asked for. -/
theorem readsAnswerTheBytesAndChangeNothing : Obligations.ReadsAnswerTheBytesAndChangeNothing := by
  intro s off k h1 h
  refine ⟨s.readBytes off k, hostRead_answers _ h1 h, readBytes_length s off k (by omega), fun a ha => ?_⟩
  rw [readBytes_getElem?, if_pos ha]

/-- Settles O58: only place `k` of the list is set. -/
theorem instancesShareNothing : Obligations.InstancesShareNothing := by
  intro sys sys' k t h
  obtain ⟨s, s', hs, hs', rfl⟩ := transactAt_next h
  obtain ⟨hk, -⟩ := List.getElem?_eq_some_iff.mp hs
  exact ⟨List.length_set, fun j hj => List.getElem?_set_ne hj.symm, s, s', hs, List.getElem?_set_self hk, hs'⟩

/-- Settles O59: the bytes read are those of the result register, and they fill the operand register. -/
theorem moveCopiesResultIntoOperand : Obligations.MoveCopiesResultIntoOperand := by
  intro s i j
  refine ⟨_, run_mv s i j, ?_, fun m hm => ?_, ⟨rfl, rfl, rfl⟩, rfl⟩
  · rw [opnd_writeOperandBytes, if_pos rfl, State.result]
  · rw [opnd_writeOperandBytes, if_neg hm]
    rfl

/-- Settles O6: a CMD write of bytes that decode runs the command. -/
theorem stepRunsTheDecodedCommand : Obligations.StepRunsTheDecodedCommand := by
  intro s B later i hpend hdec
  rw [step_of_pending hpend, transact_memWrite_cmd _ (length_of_decode_eq_ok hdec) hdec]

/-- Settles O8: with nothing waiting there is no transaction to take. -/
theorem idleBlockStaysAsItIs : Obligations.IdleBlockStaysAsItIs :=
  fun _ => step_of_idle

/-- Settles O43: Reset puts back every register and leaves the port's waiting transactions. -/
theorem resetTransactionZeroesTheBlock : Obligations.ResetTransactionZeroesTheBlock := by
  intro s later hpend
  rw [step_of_pending hpend]
  rfl

/-- Settles O54: neither range holds an operand or CMD. -/
theorem writesToResultsAndStatusAreIgnored : Obligations.WritesToResultsAndStatusAreIgnored :=
  fun _ _ _ h1 h => hostWrite_ignored _ h1 h

/-- Settles O56: each of the port's refusals, by the range that it is for. -/
theorem meaninglessAccessesAreRefused : Obligations.MeaninglessAccessesAreRefused :=
  fun _ _ _ _ => ⟨hostWrite_partialCommand _, hostWrite_straddles _, hostRead_straddles _, hostWrite_outside _,
    hostRead_outside _⟩

end Sys2Proof.Statements
end

section
/-! PROOFS. What a command can return and raise (O21, O46 to O48), and the invariant of the results and STATUS (O42, O49,
O50). -/

namespace Sys2Proof.Machine

open Sys2Proof.Statements

/-! ### What a command can return and raise -/

/-- A computation raises only the errors `E`, and what it returns satisfies `Q`. -/
def Yields {α : Type} (E : List CmdError) (Q : α → Prop) : Except CmdError α → Prop
  | .ok a => Q a
  | .error e => e ∈ E

theorem Yields.bind {α β : Type} {E : List CmdError} {Q : α → Prop} {R : β → Prop} {o : Except CmdError α}
    {f : α → Except CmdError β} (ho : Yields E Q o) (hf : ∀ a, Q a → Yields E R (f a)) : Yields E R (o >>= f) := by
  cases o with
  | ok a => exact hf a ho
  | error e => exact ho

section
variable {E : List CmdError}

/-- R80: a FieldElement operand is reduced, or out of range. -/
theorem decFE_yields (v : Reg) (hE : .outOfRangeError ∈ E) : Yields E (· < p) (decFE v) := by
  rcases decFE_cases v with ⟨h, e⟩ | ⟨-, e⟩
  · rw [e]; exact h
  · rw [e]; exact hE

/-- R82: a point operand is a valid point, or out of range, or not on the curve. -/
theorem decPt_yields (inf : Bool) (vx vy : Reg) (hE : .outOfRangeError ∈ E) (hE' : .notOnCurveError ∈ E) :
    Yields E (fun P => P.valid = true) (decPt inf vx vy) := by
  cases inf with
  | true => exact rfl
  | false =>
    rcases decPt_cases vx vy with ⟨hx, hy, hc, e⟩ | ⟨-, e⟩ | ⟨-, -, -, e⟩
    · rw [e]; exact (valid_affine _ _).mpr ⟨hx, hy, hc⟩
    · rw [e]; exact hE
    · rw [e]; exact hE'

/-- R159: `lift_x` finds a valid point, or there is none. -/
theorem liftX_yields {x : Nat} (hx : x < p) (hE : .invalidXCoordinateError ∈ E) :
    Yields E (fun P => P.valid = true) (liftX x) := by
  have : Fact p.Prime := ⟨p_prime⟩
  rcases liftX_cases x with ⟨P, e⟩ | e
  · obtain ⟨y, rfl, hv, -⟩ := liftX_ok hx e
    rw [e]; exact hv
  · rw [e]; exact hE

end

/-- The errors that a command can raise (R261, column "raised by"). -/
def errorsOf : Instr → List CmdError
  | .fadd | .fsub | .fmul | .fsqr | .fneg | .finv | .feq | .fpar | .fdec => [.outOfRangeError]
  | .padd _ _ | .pdbl _ | .pmul _ | .pneg _ | .peq _ _ | .pchk _ => [.outOfRangeError, .notOnCurveError]
  | .liftx => [.outOfRangeError, .invalidXCoordinateError]
  | .pgen | .thash | .chal | .verify => []

/-- The values that a command can return: a FieldElement, a boolean, a CurvePoint, or the number of a hash. -/
def Returns : Instr → CmdResult → Prop
  | .fadd | .fsub | .fmul | .fsqr | .fneg | .finv | .fdec => fun r => ∃ v < p, r = { r0 := v }
  | .feq | .fpar | .peq _ _ | .verify => fun r => ∃ b, r = encBool b
  | .padd _ _ | .pdbl _ | .pmul _ | .pneg _ | .pchk _ | .liftx | .pgen => fun r => ∃ P, P.valid = true ∧ r = encPt P
  | .thash | .chal => fun r => ∃ v, r = { r0 := v }

theorem Yields.point {E : List CmdError} {P : Point} (h : P.valid = true) :
    Yields E (fun r => ∃ P, P.valid = true ∧ r = encPt P) (.ok (encPt P)) := ⟨P, h, rfl⟩

theorem exec_pmul (ia : Bool) (s : State) :
    exec (.pmul ia) s = .next (settle (decPt ia s.opnd0 s.opnd1 >>= fun P =>
      .ok (encPt (ptMul (decScalar s.opnd2) P))) s) := rfl

theorem OnOneFE.yields {i : Instr} {f : Nat → CmdResult} (hi : OnOneFE i f) (s : State) {E : List CmdError}
    {Q : CmdResult → Prop} (hE : .outOfRangeError ∈ E) (hf : ∀ a < p, Q (f a)) :
    ∃ o, exec i s = .next (settle o s) ∧ Yields E Q o :=
  ⟨_, hi s, (decFE_yields _ hE).bind fun a ha => hf a ha⟩

theorem OnTwoFE.yields {i : Instr} {f : Nat → Nat → CmdResult} (hi : OnTwoFE i f) (s : State) {E : List CmdError}
    {Q : CmdResult → Prop} (hE : .outOfRangeError ∈ E) (hf : ∀ a b, Q (f a b)) :
    ∃ o, exec i s = .next (settle o s) ∧ Yields E Q o :=
  ⟨_, hi s, (decFE_yields _ hE).bind fun a _ => (decFE_yields _ hE).bind fun b _ => hf a b⟩

/-- R92: every command settles an outcome of its own kind, a value that it can return or an error that it can raise: the
refinement of `exec_settles` that the commands' rules give. -/
theorem exec_yields (i : Instr) (s : State) :
    ∃ o, exec i s = .next (settle o s) ∧ Yields (errorsOf i) (Returns i) o := by
  have : Fact p.Prime := ⟨p_prime⟩
  have hfe : .outOfRangeError ∈ [CmdError.outOfRangeError] := by decide
  have hpt : .outOfRangeError ∈ [CmdError.outOfRangeError, .notOnCurveError] := by decide
  have hpt' : .notOnCurveError ∈ [CmdError.outOfRangeError, .notOnCurveError] := by decide
  cases i with
  | fadd => exact onTwoFE_fadd.yields s hfe fun a b => ⟨_, feAdd_lt a b, rfl⟩
  | fsub => exact onTwoFE_fsub.yields s hfe fun a b => ⟨_, feSub_lt a b, rfl⟩
  | fmul => exact onTwoFE_fmul.yields s hfe fun a b => ⟨_, feMul_lt a b, rfl⟩
  | fsqr => exact onOneFE_fsqr.yields s hfe fun a _ => ⟨_, feSqr_lt a, rfl⟩
  | fneg => exact onOneFE_fneg.yields s hfe fun a _ => ⟨_, feNeg_lt a, rfl⟩
  | finv => exact onOneFE_finv.yields s hfe fun a _ => ⟨_, feInv_lt a, rfl⟩
  | fdec => exact onOneFE_fdec.yields s hfe fun a ha => ⟨a, ha, rfl⟩
  | feq => exact onTwoFE_feq.yields s hfe fun _ _ => ⟨_, rfl⟩
  | fpar => exact onOneFE_fpar.yields s hfe fun _ _ => ⟨_, rfl⟩
  | padd ia ib =>
    exact ⟨_, exec_padd ia ib s, (decPt_yields _ _ _ hpt hpt').bind fun P hP =>
      (decPt_yields _ _ _ hpt hpt').bind fun Q hQ => .point (ptAdd_spec hP hQ).1⟩
  | pdbl ia =>
    exact ⟨_, exec_pdbl ia s, (decPt_yields _ _ _ hpt hpt').bind fun P hP => .point (ptDbl_spec hP).1⟩
  | pmul ia =>
    exact ⟨_, exec_pmul ia s, (decPt_yields _ _ _ hpt hpt').bind fun P hP =>
      .point (ptMul_spec hP ((Nat.mod_lt _ n_pos).trans n_lt)).1⟩
  | pneg ia =>
    exact ⟨_, exec_pneg ia s, (decPt_yields _ _ _ hpt hpt').bind fun P hP => .point (ptNeg_spec hP).1⟩
  | peq ia ib =>
    exact ⟨_, exec_peq ia ib s, (decPt_yields _ _ _ hpt hpt').bind fun _ _ =>
      (decPt_yields _ _ _ hpt hpt').bind fun _ _ => ⟨_, rfl⟩⟩
  | liftx =>
    exact ⟨_, exec_liftx s, (decFE_yields _ (by decide)).bind fun x hx =>
      (liftX_yields hx (by decide)).bind fun P hP => .point hP⟩
  | pchk ia => exact ⟨_, exec_pchk ia s, (decPt_yields _ _ _ hpt hpt').bind fun P hP => .point hP⟩
  | pgen => exact ⟨_, exec_pgen s, .point G_valid⟩
  | thash | chal | verify => exact ⟨_, rfl, _, rfl⟩

/-- Everything a command's next state can be: the outcome of a value that it can return, or of an error that it can
raise. -/
theorem exec_next {i : Instr} {s t : State} (h : exec i s = .next t) :
    (∃ r, Returns i r ∧ t = complete r s) ∨ (∃ e ∈ errorsOf i, t = raiseError e s) := by
  obtain ⟨o, ho, hy⟩ := exec_yields i s
  obtain rfl : settle o s = t := Host.Outcome.next.inj (ho.symm.trans h)
  cases o with
  | ok r => exact .inl ⟨r, hy, rfl⟩
  | error e => exact .inr ⟨e, hy, rfl⟩

/-- A FieldElement or a boolean is a reduced number. -/
theorem r0_lt_of_returns {i : Instr} {r : CmdResult} (hi : i ∈ fieldCommands) (h : Returns i r) : r.r0 < p := by
  cases i with
  | fadd | fsub | fmul | fsqr | fneg | finv | fdec =>
    obtain ⟨v, hv, rfl⟩ := h
    exact hv
  | feq | fpar =>
    obtain ⟨b, rfl⟩ := h
    exact b.toNat_lt.trans_le p_prime.two_le
  | _ => exact absurd hi (by simp [fieldCommands])

/-! ### The codes of the errors -/

theorem CmdError.code_injective : Function.Injective CmdError.code := by
  intro e e' h
  cases e <;> cases e' <;> simp [CmdError.code] at h ⊢

theorem ne_illegalCommand_of_mem_errorsOf {i : Instr} {e : CmdError} (h : e ∈ errorsOf i) : e ≠ .illegalCommand := by
  rintro rfl
  cases i <;> simp [errorsOf] at h

theorem eq_liftx_of_mem_errorsOf {i : Instr} (h : .invalidXCoordinateError ∈ errorsOf i) : i = .liftx := by
  cases i <;> simp [errorsOf] at h ⊢

theorem pointOperand_of_mem_errorsOf {i : Instr} (h : .notOnCurveError ∈ errorsOf i) : ∃ ia ib : Bool,
    i = .padd ia ib ∨ i = .pdbl ia ∨ i = .pmul ia ∨ i = .pneg ia ∨ i = .peq ia ib ∨ i = .pchk ia := by
  cases i <;> simp [errorsOf] at h ⊢

theorem errorsOf_eq_nil {i : Instr} (h : i = .pgen ∨ i = .thash ∨ i = .chal ∨ i = .verify) : errorsOf i = [] := by
  rcases h with rfl | rfl | rfl | rfl <;> rfl

/-! ### The invariant -/

/-- The invariant speaks of the results and STATUS alone. -/
theorem consistent_congr {s t : State} (h : SameResult s t) : s.consistent = t.consistent := by
  obtain ⟨h0, h1, hst⟩ := h
  simp only [State.consistent, State.errLegal, State.idleIsZero, State.errorIsZero, State.infinityIsZero,
    State.truthIsOne, State.pointOnCurve, h0, h1, hst]

/-- The six clauses of the invariant (R21, R30, R34, R83, R87, R262). -/
theorem consistent_iff {s : State} : s.consistent = true ↔
    s.status.err.toNat ≤ 4 ∧
    (s.status.done = false → s.res0 = 0#256 ∧ s.res1 = 0#256 ∧ s.status = ⟨false, false, false, 0#4⟩) ∧
    (s.status.err ≠ 0#4 → s.res0 = 0#256 ∧ s.res1 = 0#256 ∧ s.status.t = false ∧ s.status.inf = false) ∧
    (s.status.inf = true → s.res0 = 0#256 ∧ s.res1 = 0#256 ∧ s.status.t = false) ∧
    (s.status.t = true → s.res0 = 1#256 ∧ s.res1 = 0#256) ∧
    (s.res1 ≠ 0#256 → (Point.affine s.res0.toNat s.res1.toNat).valid = true) := by
  simp [State.consistent, State.errLegal, State.idleIsZero, State.errorIsZero, State.infinityIsZero,
    State.truthIsOne, State.pointOnCurve, and_assoc, or_iff_not_imp_left]

theorem consistent_reset : State.reset.consistent = true := by decide

theorem consistent_applyReset (s : State) : (applyReset s).consistent = true :=
  (consistent_congr ⟨rfl, rfl, rfl⟩).trans consistent_reset

/-- R262: taking an error leaves zeros and one of the four codes. -/
theorem consistent_raiseError (e : CmdError) (s : State) : (raiseError e s).consistent = true := by
  have hcode : e.code.toNat ≤ 4 := by cases e <;> decide
  simp [consistent_iff, hcode]

theorem consistent_complete_value (v : Nat) (s : State) : (complete { r0 := v } s).consistent = true := by
  simp [consistent_iff]

/-- R87: a true boolean is the number 1. -/
theorem consistent_complete_encBool (b : Bool) (s : State) : (complete (encBool b) s).consistent = true := by
  cases b <;> simp [consistent_iff, encBool]

/-- R83: O leaves zeros, and the coordinates of a finite point are reduced, so the registers hold them. -/
theorem consistent_complete_encPt {P : Point} (hP : P.valid = true) (s : State) :
    (complete (encPt P) s).consistent = true := by
  cases P with
  | infinity => simp [consistent_iff, encPt]
  | affine x y =>
    obtain ⟨hx, hy, -⟩ := (valid_affine x y).mp hP
    simp [consistent_iff, encPt, toNat_ofNat_of_lt hx, toNat_ofNat_of_lt hy, hP, -BitVec.toNat_ofNat]

theorem consistent_complete {i : Instr} {r : CmdResult} (h : Returns i r) (s : State) :
    (complete r s).consistent = true := by
  cases i with
  | fadd | fsub | fmul | fsqr | fneg | finv | fdec =>
    obtain ⟨v, -, rfl⟩ := h
    exact consistent_complete_value v s
  | feq | fpar | peq | verify =>
    obtain ⟨b, rfl⟩ := h
    exact consistent_complete_encBool b s
  | padd | pdbl | pmul | pneg | pchk | liftx | pgen =>
    obtain ⟨P, hP, rfl⟩ := h
    exact consistent_complete_encPt hP s
  | thash | chal =>
    obtain ⟨v, rfl⟩ := h
    exact consistent_complete_value v s

/-- A command makes the block consistent, whatever stood there. -/
theorem consistent_of_exec {i : Instr} {s t : State} (h : exec i s = .next t) : t.consistent = true := by
  rcases exec_next h with ⟨r, hr, rfl⟩ | ⟨e, -, rfl⟩
  · exact consistent_complete hr s
  · exact consistent_raiseError e s

/-- Host writes and reads leave the results and STATUS; commands and Reset set them anew. -/
theorem transact_keeps_consistent {t : Transaction} {s s' : State} (hs : s.consistent = true)
    (h : transact t s = .next s') : s'.consistent = true := by
  rcases transact_next h with ⟨off, B, rfl⟩ | ⟨A, rfl⟩ | ⟨i, hi⟩ | ⟨e, rfl⟩ | rfl
  · exact (consistent_congr ⟨rfl, rfl, rfl⟩).trans hs
  · exact (consistent_congr ⟨rfl, rfl, rfl⟩).trans hs
  · exact consistent_of_exec hi
  · exact consistent_raiseError e _
  · exact consistent_applyReset _

end Sys2Proof.Machine

namespace Sys2Proof.Statements

open Sys2Proof.Machine

/-- Settles O50: an idle step changes nothing, and every transaction keeps the invariant. -/
theorem stepKeepsTheBlockConsistent : Obligations.StepKeepsTheBlockConsistent := by
  intro s s' hs h
  rcases step_cases s with ⟨-, e⟩ | ⟨t, later, -, e⟩
  · obtain rfl : s = s' := Host.Outcome.next.inj (e.symm.trans h)
    exact hs
  · have hs0 : { s with pending := later }.consistent = true := (consistent_congr ⟨rfl, rfl, rfl⟩).trans hs
    exact transact_keeps_consistent hs0 (e.symm.trans h)

/-- Settles O21: the value that a field command returns is reduced, and its boolean and its error's zero are below p. -/
theorem fieldResultsAreReduced : Obligations.FieldResultsAreReduced := by
  intro i s t hi h
  rcases exec_next h with ⟨r, hr, rfl⟩ | ⟨e, -, rfl⟩
  · have hlt := r0_lt_of_returns hi hr
    rwa [complete_res0, toNat_ofNat_of_lt hlt]
  · exact p_pos

/-- Settles O47: the code in ERR is that of an error that the command can raise. -/
theorem errorCodesComeFromTheirCommands : Obligations.ErrorCodesComeFromTheirCommands := by
  intro i s t h
  rcases exec_next h with ⟨r, -, rfl⟩ | ⟨e, he, rfl⟩
  · rw [complete_status, statusOk_err]
    exact ⟨by decide, fun h => absurd h (by decide), fun h => absurd h (by decide), fun _ => rfl⟩
  · rw [raiseError_status, statusError_err]
    refine ⟨fun hc => ?_, fun hc => ?_, fun hc => ?_, fun hi => ?_⟩
    · exact ne_illegalCommand_of_mem_errorsOf he (CmdError.code_injective hc)
    · obtain rfl : e = .invalidXCoordinateError := CmdError.code_injective hc
      exact eq_liftx_of_mem_errorsOf he
    · obtain rfl : e = .notOnCurveError := CmdError.code_injective hc
      exact pointOperand_of_mem_errorsOf he
    · rw [errorsOf_eq_nil hi] at he
      cases he

/-- Settles O48: an error's state is the error outcome with its code, and no command raises IllegalCommand. -/
theorem errorLeavesZeroResults : Obligations.ErrorLeavesZeroResults := by
  intro i s t h herr
  rcases exec_next h with ⟨r, -, rfl⟩ | ⟨e, he, rfl⟩
  · exact absurd rfl herr
  · refine ⟨raiseError_eq_errorState e s, ?_⟩
    cases e with
    | illegalCommand => exact absurd rfl (ne_illegalCommand_of_mem_errorsOf he)
    | outOfRangeError => exact .inl rfl
    | invalidXCoordinateError => exact .inr (.inl rfl)
    | notOnCurveError => exact .inr (.inr rfl)

/-- Settles O42: the reset state is written out, register by register. -/
theorem resetLeavesEveryRegisterZero : Obligations.ResetLeavesEveryRegisterZero :=
  ⟨by decide, rfl, rfl, by decide⟩

/-- Settles O46: both states hold the same operands, so the command settles the same outcome, and settling overwrites what
the error left. -/
theorem errorsAreNotSticky : Obligations.ErrorsAreNotSticky := by
  intro i s c
  have hopnd : ∀ j ∈ readsOf i, (errorState s c).opnd j = s.opnd j := fun j _ => by
    match j with
    | 0 | 1 | 2 | 3 => rfl
  obtain ⟨o, he, hs⟩ := exec_settles_same_outcome hopnd
  rw [he, hs]
  cases o <;> rfl

/-- Settles O49: the reset state, computed. -/
theorem resetIsConsistent : Obligations.ResetIsConsistent :=
  consistent_reset

end Sys2Proof.Statements
end

section
/-! PROOFS. The laws of the field (O22), the group of the curve's points (O25, O32 to O34), and the properties of VERIFY that
follow from them (O39, O41). -/

namespace Sys2Proof.Machine

open Sys2Proof.Statements

/-! ### The laws of the field -/

section
variable (a b c : Nat)

theorem feAdd_comm : feAdd a b = feAdd b a := by rw [feAdd, feAdd, Nat.add_comm]

theorem feMul_comm : feMul a b = feMul b a := by rw [feMul, feMul, Nat.mul_comm]

theorem feAdd_assoc : feAdd (feAdd a b) c = feAdd a (feAdd b c) :=
  cast_inj (feAdd_lt _ _) (feAdd_lt _ _) (by simp only [cast_feAdd]; ring)

theorem feMul_assoc : feMul (feMul a b) c = feMul a (feMul b c) :=
  cast_inj (feMul_lt _ _) (feMul_lt _ _) (by simp only [cast_feMul]; ring)

theorem feMul_feAdd : feMul a (feAdd b c) = feAdd (feMul a b) (feMul a c) :=
  cast_inj (feMul_lt _ _) (feAdd_lt _ _) (by simp only [cast_feMul, cast_feAdd]; ring)

variable {b} in
theorem feSub_eq_feAdd_feNeg (hb : b ≤ p) : feSub a b = feAdd a (feNeg b) :=
  cast_inj (feSub_lt _ _) (feAdd_lt _ _) (by rw [cast_feSub a hb, cast_feAdd, cast_feNeg hb, sub_eq_add_neg])

end

/-! ### The group of the points -/

/-- R157: the double-and-add loop computes the repeated sum. -/
theorem ptMul_eq_ptMulIter {P : Point} (hP : P.valid = true) {k : Nat} (hk : k < 2 ^ 256) :
    ptMul k P = ptMulIter k P := by
  have : Fact p.Prime := ⟨p_prime⟩
  obtain ⟨hm, em⟩ := ptMul_spec hP hk
  obtain ⟨hi, ei⟩ := ptMulIter_spec hP k
  exact toSecp_injective hm hi (em.trans ei.symm)

section
variable {P Q R : Point}

theorem ptAdd_assoc (hP : P.valid = true) (hQ : Q.valid = true) (hR : R.valid = true) :
    ptAdd (ptAdd P Q) R = ptAdd P (ptAdd Q R) := by
  have : Fact p.Prime := ⟨p_prime⟩
  obtain ⟨hPQ, ePQ⟩ := ptAdd_spec hP hQ
  obtain ⟨hQR, eQR⟩ := ptAdd_spec hQ hR
  obtain ⟨hl, el⟩ := ptAdd_spec hPQ hR
  obtain ⟨hr, er⟩ := ptAdd_spec hP hQR
  exact toSecp_injective hl hr (by rw [el, ePQ, er, eQR, add_assoc])

theorem ptAdd_comm (hP : P.valid = true) (hQ : Q.valid = true) : ptAdd P Q = ptAdd Q P := by
  have : Fact p.Prime := ⟨p_prime⟩
  obtain ⟨hl, el⟩ := ptAdd_spec hP hQ
  obtain ⟨hr, er⟩ := ptAdd_spec hQ hP
  exact toSecp_injective hl hr (by rw [el, er, add_comm])

theorem ptAdd_ptNeg (hP : P.valid = true) : ptAdd P (ptNeg P) = .infinity := by
  have : Fact p.Prime := ⟨p_prime⟩
  obtain ⟨hn, en⟩ := ptNeg_spec hP
  obtain ⟨hs, es⟩ := ptAdd_spec hP hn
  exact toSecp_injective hs rfl (by rw [es, en, add_neg_cancel, toSecp_infinity])

theorem ptAdd_infinity (P : Point) : ptAdd P .infinity = P := by cases P <;> rfl

theorem valid_ptAdd (hP : P.valid = true) (hQ : Q.valid = true) : (ptAdd P Q).valid = true := by
  have : Fact p.Prime := ⟨p_prime⟩
  exact (ptAdd_spec hP hQ).1

theorem valid_ptNeg (hP : P.valid = true) : (ptNeg P).valid = true := by
  have : Fact p.Prime := ⟨p_prime⟩
  exact (ptNeg_spec hP).1

/-- R151: every multiple by n is O. -/
theorem ptMul_n (hP : P.valid = true) : ptMul n P = .infinity := by
  rw [ptMul_eq_ptMulIter hP n_lt]
  cases P with
  | infinity =>
    have : Fact p.Prime := ⟨p_prime⟩
    obtain ⟨hv, e⟩ := ptMulIter_spec hP n
    exact toSecp_injective hv rfl (by rw [e, toSecp_infinity, nsmul_zero])
  | affine x y =>
    have : Fact p.Prime := ⟨p_prime⟩
    exact (ptMulIter_eq_infinity_iff hP n).mpr (Nat.mod_self n)

end

/-! ### The chord -/

/-- A reduced number whose residue is that of an integer is the integer modulo p. -/
theorem intCast_eq_emod {a : Nat} {z : Int} (ha : a < p) (h : (a : ZMod p) = (z : ZMod p)) : (a : Int) = z % p := by
  have hz : (((a : Int)) : ZMod p) = (z : ZMod p) := by rw [Int.cast_natCast, h]
  rw [← (ZMod.intCast_eq_intCast_iff' _ _ _).mp hz, Int.emod_eq_of_lt (Int.natCast_nonneg a) (Int.ofNat_lt.mpr ha)]

/-- The slope of the chord (R156). -/
def chordSlope (x1 y1 x2 y2 : Nat) : Nat := feMul (feSub y2 y1) (feInv (feSub x2 x1))

theorem ptAdd_of_x_ne {x1 x2 : Nat} (y1 y2 : Nat) (h : x1 ≠ x2) :
    ptAdd (.affine x1 y1) (.affine x2 y2) =
      let lam := chordSlope x1 y1 x2 y2
      let x3 := feSub (feSub (feSqr lam) x1) x2
      .affine x3 (feSub (feMul lam (feSub x1 x3)) y1) := by
  rw [ptAdd, if_neg (fun he => h he.1), if_neg h]
  rfl

/-- The slope times the difference of the x is the difference of the y: the inverse of that difference exists. -/
theorem cast_chordSlope_mul [Fact p.Prime] {x1 y1 x2 y2 : Nat} (hx1 : x1 < p) (hy1 : y1 < p) (hx2 : x2 < p)
    (h : x1 ≠ x2) : (chordSlope x1 y1 x2 y2 : ZMod p) * (x2 - x1) = y2 - y1 := by
  have hne : (x2 : ZMod p) - x1 ≠ 0 := sub_ne_zero.mpr fun e => h (cast_inj hx2 hx1 e).symm
  rw [chordSlope, cast_feMul, cast_feInv, cast_feSub _ hy1.le, cast_feSub _ hx1.le, inv_mul_cancel_right₀ hne]

/-! ### PMUL -/

theorem valid_of_holds {inf : Bool} {vx vy : Reg} {P : Point} (h : Holds inf vx vy P) : P.valid = true :=
  decPt_valid (decPt_of_holds h)

/-- R167: the scalar is reduced, so the loop computes its multiple. -/
theorem exec_pmul_of_holds {ia : Bool} {s : State} {P : Point} (h : Holds ia s.opnd0 s.opnd1 P) :
    exec (.pmul ia) s = .next (pointState s (ptMulIter (s.opnd2.toNat % n) P)) := by
  have hk : decScalar s.opnd2 < 2 ^ 256 := (Nat.mod_lt _ n_pos).trans n_lt
  rw [exec_pmul, settle_decPt_of_holds h, settle_ok, complete_encPt, ptMul_eq_ptMulIter (valid_of_holds h) hk,
    decScalar]

/-- The answer O is told from every other by INF. -/
theorem pointState_eq_infinity_iff {s : State} {P : Point} :
    pointState s P = pointState s .infinity ↔ P = .infinity := by
  refine ⟨fun h => ?_, fun h => h ▸ rfl⟩
  cases P with
  | infinity => rfl
  | affine x y =>
    have hinf : false = true := congrArg (fun t : State => t.status.inf) h
    cases hinf

/-! ### Signatures -/

/-- In the multiples of G, scalars count modulo n: s·G = k·G + e·(d·G) for s = k + e·d mod n. -/
theorem ptAdd_ptMulIter_of_scalars {d k e : Nat} (hd : d < n) (hk : k < n) :
    ptAdd (ptMul k G) (ptMulIter e (ptMul d G)) = ptMulIter ((k + e * d) % n) G := by
  have : Fact p.Prime := ⟨p_prime⟩
  obtain ⟨hR, eR⟩ := ptMul_spec G_valid (hk.trans n_lt)
  obtain ⟨hP, eP⟩ := ptMul_spec G_valid (hd.trans n_lt)
  obtain ⟨heP, eeP⟩ := ptMulIter_spec hP e
  obtain ⟨hsum, esum⟩ := ptAdd_spec hR heP
  obtain ⟨hs, es⟩ := ptMulIter_spec G_valid ((k + e * d) % n)
  refine toSecp_injective hsum hs ?_
  calc toSecp (ptAdd (ptMul k G) (ptMulIter e (ptMul d G)))
      = (k + e * d) • toSecp G := by rw [esum, eR, eeP, eP, add_nsmul, mul_nsmul']
    _ = ((k + e * d) % n) • toSecp G := by rw [← order_of_G, mod_addOrderOf_nsmul]
    _ = toSecp (ptMulIter ((k + e * d) % n) G) := es.symm

end Sys2Proof.Machine

namespace Sys2Proof.Statements

open Sys2Proof.Machine

/-- Settles O22: the laws of the integers modulo p, and Fermat's inverse. -/
theorem fieldLawsHold : Obligations.FieldLawsHold := by
  refine ⟨feAdd_comm, feMul_comm, fun a b c _ _ _ => ⟨feAdd_assoc a b c, feMul_assoc a b c, feMul_feAdd a b c⟩,
    fun a ha => ⟨Nat.mod_eq_of_lt ha, ?_, rfl⟩, fun a b _ hb => feSub_eq_feAdd_feNeg a hb.le,
    fun a ha0 ha => (feMul_eq_one_iff ha0 ha (feInv_lt a)).mpr rfl, feInv_zero⟩
  rw [feMul, Nat.mul_one, Nat.mod_eq_of_lt ha]

/-- Settles O25: the operand decodes to a point of the curve, and the loop computes the repeated sum. -/
theorem pmulAddsThePointRepeatedly : Obligations.PmulAddsThePointRepeatedly := by
  refine ⟨by decide, fun s ia P c => ⟨exec_pmul_of_holds, fun hA => ?_⟩⟩
  rw [exec_pmul, settle_decPt_of_failsWith hA]

/-- Settles O32: the laws of the curve's group, carried over to its points. -/
theorem pointsFormACommutativeGroup : Obligations.PointsFormACommutativeGroup :=
  fun P _ _ hP hQ hR => ⟨valid_ptAdd hP hQ, valid_ptNeg hP, ptAdd_assoc hP hQ hR, ptAdd_comm hP hQ, rfl,
    ptAdd_infinity P, ptAdd_ptNeg hP⟩

/-- Settles O33: the model's chord, with each of its reductions read as an integer modulo p. -/
theorem sumOfTwoPointsLiesOnTheChord : Obligations.SumOfTwoPointsLiesOnTheChord := by
  intro x1 y1 x2 y2 ⟨hx1, hy1, _⟩ ⟨hx2, _, _⟩ hne
  have : Fact p.Prime := ⟨p_prime⟩
  refine ⟨chordSlope x1 y1 x2 y2, _, _, ptAdd_of_x_ne y1 y2 hne, feSub_lt _ _, feSub_lt _ _, ?_, ?_, ?_⟩
  · rw [← ZMod.intCast_eq_intCast_iff']
    push_cast
    exact cast_chordSlope_mul hx1 hy1 hx2 hne
  · apply intCast_eq_emod (feSub_lt _ _)
    rw [cast_feSub _ hx2.le, cast_feSub _ hx1.le, cast_feSqr]
    push_cast
    rfl
  · apply intCast_eq_emod (feSub_lt _ _)
    rw [cast_feSub _ hy1.le, cast_feMul, cast_feSub _ (feSub_lt _ _).le]
    push_cast
    rfl

/-- Settles O34: every finite point has order n. -/
theorem multiplesOfTheGenerator : Obligations.MultiplesOfTheGenerator := by
  refine ⟨ptMul_n_G, fun _ => ptMul_n, fun s P h => ?_⟩
  have : Fact p.Prime := ⟨p_prime⟩
  have hP := valid_of_holds h
  rw [exec_pmul_of_holds h, Host.Outcome.next.injEq, pointState_eq_infinity_iff]
  obtain ⟨hf, -⟩ | ⟨-, -, rfl⟩ := h
  · cases hf
  · rw [ptMulIter_eq_infinity_iff hP, Nat.mod_mod]

/-- Settles O39: the verifier accepts only when the public key lifts and all three numbers are in range. -/
theorem verifyRejectsBadRanges : Obligations.VerifyRejectsBadRanges := by
  intro s hbad
  rw [exec_verify, Host.Outcome.next.injEq, boolState_inj, Bool.eq_false_iff, Ne, verify_bytes32_iff]
  rintro ⟨hpk, hr, hs, P, hlift, -⟩
  obtain ⟨y, hP, -, -⟩ := (liftX_eq_ok_iff hpk).mp hlift
  rcases hbad with h | h | h | h
  · omega
  · exact h y hP
  · omega
  · omega

/-- Settles O41: the signature meets the verification equation, because scalars of G count modulo n. -/
theorem honestSignatureVerifies : Obligations.HonestSignatureVerifies := by
  intro s d k py ry hd hk hP hpy hR hry hs
  have : Fact p.Prime := ⟨p_prime⟩
  have hPv := (ptMul_spec G_valid (hd.trans n_lt)).1
  have hRv := (ptMul_spec G_valid (hk.trans n_lt)).1
  have heq := ptAdd_ptMulIter_of_scalars (e := chal (bytes32 s.opnd1) (bytes32 s.opnd3) (bytes32 s.opnd0)) hd hk
  rw [hP] at hPv heq
  rw [hR] at hRv heq
  rw [← hs] at heq
  exact (verifyIsTheSchnorrEquation s).mpr ⟨hs ▸ Nat.mod_lt _ n_pos, ry, py, valid_affine_iff_isPoint.mp hRv, hry,
    valid_affine_iff_isPoint.mp hPv, hpy, heq⟩

end Sys2Proof.Statements
end

section
/-! PROOFS. SHA-256 by its rules (O35, O60): the padding, the constants as root bits of the primes, the schedule of each
block, the rounds and the chain of hash values. -/

namespace Sys2Proof.Machine

open Sys2Proof.Statements

/-! ### Small primes and integer roots (R192) -/

/-- Trial division by the numbers below 18. -/
def trialPrime (q : Nat) : Bool :=
  decide (2 ≤ q ∧ ∀ d : Nat, d < 18 → ¬(2 ≤ d ∧ d < q ∧ d ∣ q))

/-- Below 18² trial division finds exactly the primes. -/
theorem prime_iff_trialPrime {q : Nat} (hq : q < 18 ^ 2) : q.Prime ↔ trialPrime q = true := by
  rw [trialPrime, decide_eq_true_iff]
  constructor
  · intro h
    refine ⟨h.two_le, fun d _ ⟨h2, hlt, hdvd⟩ => ?_⟩
    rcases h.eq_one_or_self_of_dvd d hdvd with rfl | rfl <;> omega
  · rintro ⟨h2, hno⟩
    by_contra hnot
    have hsq : q.minFac ^ 2 < 18 ^ 2 := (Nat.minFac_sq_le_self (by omega) hnot).trans_lt hq
    exact hno _ (lt_of_pow_lt_pow_left₀ 2 (by omega) hsq) ⟨(Nat.minFac_prime (by omega)).two_le,
      (Nat.not_prime_iff_minFac_lt h2).mp hnot, q.minFac_dvd⟩

theorem count_prime_eq {q : Nat} (hq : q ≤ 18 ^ 2) : Nat.count Nat.Prime q = Nat.count (trialPrime · = true) q := by
  rw [Nat.count_eq_card_filter_range, Nat.count_eq_card_filter_range]
  congr 1
  exact Finset.filter_congr fun x hx => prime_iff_trialPrime ((Finset.mem_range.mp hx).trans_le hq)

/-- The binary digits of the k-th root of `N` below 2^i, added to `r` from the highest on. -/
def rootDigits (k N : Nat) : Nat → Nat → Nat
  | 0, r => r
  | i + 1, r => rootDigits k N i (if (r + 2 ^ i) ^ k ≤ N then r + 2 ^ i else r)

/-- Whether `w` is the root's first 32 fractional bits, checked on the root below 2^40 that `rootDigits` finds. -/
def rootBitsOk (k q : Nat) (w : Word32) : Bool :=
  let r := rootDigits k (q * 2 ^ (32 * k)) 40 0
  decide (r ^ k ≤ q * 2 ^ (32 * k) ∧ q * 2 ^ (32 * k) < (r + 1) ^ k ∧ w.toNat = r % 2 ^ 32)

theorem isRootBits_of_rootBitsOk {k q : Nat} {w : Word32} (h : rootBitsOk k q w = true) : IsRootBits k q w :=
  ⟨_, of_decide_eq_true h⟩

/-- The words of a table are the root bits of the primes in order, when the check accepts those of the primes below `m`. -/
theorem isRootBits_of_table {k m c : Nat} {table : Nat → Word32} (hm : m ≤ 18 ^ 2)
    (hc : c ≤ Nat.count (trialPrime · = true) m)
    (hok : ∀ q < m, trialPrime q = true → rootBitsOk k q (table (Nat.count (trialPrime · = true) q)) = true)
    {q : Nat} (hq : q.Prime) (hlt : Nat.count Nat.Prime q < c) : IsRootBits k q (table (Nat.count Nat.Prime q)) := by
  have hqm : q < m := Nat.lt_of_count_lt_count (p := Nat.Prime) (by rw [count_prime_eq hm]; omega)
  have hq18 : q < 18 ^ 2 := hqm.trans_le hm
  rw [count_prime_eq hq18.le]
  exact isRootBits_of_rootBitsOk (hok q hqm ((prime_iff_trialPrime hq18).mp hq))

/-- R192: the round constants hold the cube roots. -/
theorem isRootBits_cube {q : Nat} (hq : q.Prime) (hlt : Nat.count Nat.Prime q < 64) :
    IsRootBits 3 q (shaK.getD (Nat.count Nat.Prime q) 0#32) :=
  isRootBits_of_table (m := 312) (c := 64) (table := (shaK.getD · 0#32)) (by decide) (by decide +kernel)
    (by decide +kernel) hq hlt

/-! ### Eight words by number -/

/-- H[j], or the j-th of the working variables a to h (R192, R194). -/
def ShaWords.word (H : ShaWords) : Nat → Word32
  | 0 => H.a
  | 1 => H.b
  | 2 => H.c
  | 3 => H.d
  | 4 => H.e
  | 5 => H.f
  | 6 => H.g
  | _ => H.h

/-- R195: the words stand one after another in the digest. -/
theorem ShaWords.bytes_getElem? (H : ShaWords) {j i : Nat} (hj : j < 8) (hi : i < 4) :
    H.bytes[4 * j + i]? = (bytes4 (H.word j))[i]? := by
  interval_cases j <;> interval_cases i <;> rfl

/-- R194: the compression adds the last working variables to the hash value, word by word. -/
theorem shaCompress_word (H : ShaWords) (block : List Byte) {j : Nat} (hj : j < 8) :
    (shaCompress H block).word j = H.word j + (shaRounds H block).word j := by
  interval_cases j <;> rfl

/-- R192: the initial hash value holds the square roots. -/
theorem isRootBits_square {q : Nat} (hq : q.Prime) (hlt : Nat.count Nat.Prime q < 8) :
    IsRootBits 2 q (shaInit.word (Nat.count Nat.Prime q)) :=
  isRootBits_of_table (m := 20) (c := 8) (table := shaInit.word) (by decide) (by decide +kernel) (by decide +kernel)
    hq hlt

theorem isRound_shaRound (v : ShaWords) (k w : Word32) : IsRound v.word (shaRound v k w).word k w := by
  simp only [IsRound, ShaWords.word, shaRound, rotr_eq_rotateRight, Nat.reduceLT, and_self]

/-! ### Folds, one element at a time -/

/-- The fold of one more element of a list. -/
theorem foldl_take_succ {α β : Type} (f : β → α → β) (x : β) {l : List α} {t : Nat} {a : α} (h : l[t]? = some a) :
    (l.take (t + 1)).foldl f x = f ((l.take t).foldl f x) a := by
  rw [List.take_add_one, h, List.foldl_append]
  rfl

theorem getElem?_zip_getD {α β : Type} (l : List α) (l' : List β) (a : α) (b : β) {t : Nat} (h : t < l.length)
    (h' : t < l'.length) : (l.zip l')[t]? = some (l.getD t a, l'.getD t b) := by
  simp [List.getD_eq_getElem?_getD, h, h']

/-- The working variables after `t` rounds (R194). -/
def roundState (H : ShaWords) (block : List Byte) (t : Nat) : ShaWords :=
  ((shaK.zip (schedule block)).take t).foldl (fun v kw => shaRound v kw.1 kw.2) H

theorem shaK_length : shaK.length = 64 := rfl

theorem roundState_succ (H : ShaWords) (block : List Byte) {t : Nat} (ht : t < 64) :
    roundState H block (t + 1)
      = shaRound (roundState H block t) (shaK.getD t 0#32) ((schedule block).getD t 0#32) := by
  have hget := getElem?_zip_getD shaK (schedule block) 0#32 0#32 (ht.trans_eq shaK_length.symm)
    (ht.trans_eq (schedule_length block).symm)
  rw [roundState, foldl_take_succ _ _ hget, roundState]

theorem roundState_last (H : ShaWords) (block : List Byte) : roundState H block 64 = shaRounds H block := by
  have hlen : (shaK.zip (schedule block)).length ≤ 64 := by
    rw [List.length_zip, shaK_length, schedule_length, Nat.min_self]
  rw [roundState, shaRounds, List.take_of_length_le hlen]

/-- The hash value after `b` blocks of a padded message (R194). -/
def hashState (padded : List Byte) (b : Nat) : ShaWords :=
  ((pieces 64 (padded.length / 64) padded).take b).foldl shaCompress shaInit

/-- Block `b` of a padded message (R191). -/
def messageBlock (padded : List Byte) (b : Nat) : List Byte :=
  (padded.drop (64 * b)).take 64

theorem hashState_succ {padded : List Byte} {b : Nat} (hb : b < padded.length / 64) :
    hashState padded (b + 1) = shaCompress (hashState padded b) (messageBlock padded b) :=
  foldl_take_succ _ _ (pieces_getElem? 64 _ padded hb)

theorem sha256_eq_hashState (M : List Byte) : sha256 M = (hashState (shaPad M) ((shaPad M).length / 64)).bytes := by
  rw [hashState, List.take_of_length_le (pieces_length _ _ _).le]
  rfl

/-! ### The schedule of a block -/

theorem messageBlock_length {padded : List Byte} {b : Nat} (hb : b < padded.length / 64) :
    (messageBlock padded b).length = 64 := by
  simp [messageBlock]; omega

theorem messageBlock_getD (padded : List Byte) (b : Nat) {i : Nat} (hi : i < 64) :
    (messageBlock padded b).getD i 0#8 = padded.getD (64 * b + i) 0#8 := by
  simp [messageBlock, List.getD_eq_getElem?_getD, List.getElem?_drop, hi]

theorem blockWords_length (block : List Byte) : (blockWords block).length = 16 := by
  simp [blockWords]

/-- R191: the first 16 words of the schedule are the block's own. -/
theorem schedule_getD_of_lt {block : List Byte} (hlen : block.length = 64) {t : Nat} (ht : t < 16) :
    (schedule block).getD t 0#32 = block.getD (4 * t) 0#8 ++ block.getD (4 * t + 1) 0#8
      ++ block.getD (4 * t + 2) 0#8 ++ block.getD (4 * t + 3) 0#8 := by
  have hpiece : (blockWords block)[t]? = some (word32OfBytes ((block.drop (4 * t)).take 4)) := by
    rw [blockWords, List.getElem?_map, pieces_getElem? 4 16 block ht]
    rfl
  rw [schedule, scheduleExtend_getD_of_lt _ _ (by simpa [blockWords_length] using ht), List.reverse_reverse,
    List.getD_eq_getElem?_getD, hpiece, Option.getD_some, word32OfBytes_take_drop _ (by omega)]

theorem isSchedule_messageBlock {padded : List Byte} {b : Nat} (hb : b < padded.length / 64) :
    IsSchedule padded (64 * b) (fun t => (schedule (messageBlock padded b)).getD t 0#32) := by
  refine ⟨fun t ht => ?_, fun t h16 ht => ?_⟩
  · simp only [schedule_getD_of_lt (messageBlock_length hb) ht]
    rw [messageBlock_getD _ _ (by omega), messageBlock_getD _ _ (by omega), messageBlock_getD _ _ (by omega),
      messageBlock_getD _ _ (by omega)]
    simp only [Nat.add_assoc]
  · have hrev : (blockWords (messageBlock padded b)).reverse.length = 16 := by simp [blockWords_length]
    have hrec := scheduleExtend_getD 48 (blockWords (messageBlock padded b)).reverse hrev.ge (hrev.le.trans h16)
      (by omega)
    simp only [rotr_eq_rotateRight _ (show 7 < 32 by decide), rotr_eq_rotateRight _ (show 18 < 32 by decide),
      rotr_eq_rotateRight _ (show 17 < 32 by decide), rotr_eq_rotateRight _ (show 19 < 32 by decide)] at hrec
    exact hrec

end Sys2Proof.Machine

namespace Sys2Proof.Statements

open Sys2Proof.Machine

/-- Settles O60: the model's constants pass the root check, and the model's folds run through the rounds of each block and
the blocks of the message. -/
theorem sha256FollowsItsRules : Obligations.Sha256FollowsItsRules := by
  intro M _
  have hblocks : (shaPad M).length = 64 * ((shaPad M).length / 64) :=
    (Nat.mul_div_cancel' (Nat.dvd_of_mod_eq_zero (shaPad_length_mod M))).symm
  refine ⟨(shaPad M).length / 64, fun t => shaK.getD t 0#32, fun b => (hashState (shaPad M) b).word,
    fun b t => (schedule (messageBlock (shaPad M) b)).getD t 0#32,
    fun b t => (roundState (hashState (shaPad M) b) (messageBlock (shaPad M) b) t).word,
    hblocks, fun _ => isRootBits_cube, fun _ => isRootBits_square,
    fun b hb => ⟨isSchedule_messageBlock hb, fun j _ => rfl, fun t ht => ?_, fun j hj => ?_⟩, sha256_length M,
    fun j i hj hi => ?_⟩
  · simp only [roundState_succ _ _ ht]
    exact isRound_shaRound _ _ _
  · simp only [hashState_succ hb, roundState_last]
    exact shaCompress_word _ _ hj
  · rw [sha256_eq_hashState, ShaWords.bytes_getElem? _ hj hi, bytes4_getElem? _ hi]

/-- Settles O35: the fill is the number of zero bytes that is missing to whole blocks. -/
theorem shaPaddingFillsBlocks : Obligations.ShaPaddingFillsBlocks :=
  fun M => ⟨(64 - (M.length + 9) % 64) % 64, Nat.mod_lt _ (by decide), by simp [shaPad, shaPadding],
    shaPad_length_mod M⟩

end Sys2Proof.Statements
end
